-- ==== Sys2Proof/Word.lean ====
section
/-! DEFINITION. The words of the block: bytes, half words, 32-bit and 64-bit words (`00_scope.md` section 5). -/

namespace Sys2Proof

/-- A payload byte, `b[i]`. -/
abbrev Byte := BitVec 8

/-- A 16-bit coefficient register (u16 or s16). -/
abbrev Half := BitVec 16

/-- An s32 register, a binary32 pattern, or a word returned on a port. -/
abbrev Word := BitVec 32

/-- A value of the 64-bit pressure datapath. -/
abbrev DWord := BitVec 64

/-- The payload of a command: exactly `n` bytes, `b[0]` first (R41, R62: a payload is complete or the command does not exist). -/
abbrev Payload (n : Nat) := Vector Byte n

end Sys2Proof
end

