-- ==== Sys2Proof/Config.lean ====
section
/-! DEFINITION. What is fixed for the block (`00_scope.md` section 4), and the values the spec leaves open. -/

namespace Sys2Proof

/-- LEN_CALA: the length of calibration block A. -/
def Config.lenCalA : Nat := 26

/-- LEN_CALB: the length of calibration block B. -/
def Config.lenCalB : Nat := 8

/-- LEN_BURST: the length of the raw data burst. -/
def Config.lenBurst : Nat := 8

/-- `OUT_RESET` (R36), the decided value of each of OUT.P, OUT.T, OUT.H. DESIGN CHOICE (log entry 7): the spec leaves it an open
parameter with this decided value. Unsafe. -/
def Config.outReset : Word := 0x00000000#32

/-- `SAMPLE_PERIOD_US` (R190, R210): recorded, and read by no rule. -/
def Config.samplePeriodUs : Nat := 20000

/-- H_CLAMP_HI of the humidity clamp (R142); the lower bound H_CLAMP_LO is 0. -/
def Config.humClampHi : Word := 419430400#32

/-- The pattern of 100.0 (R91), T_DIV. -/
def Config.f32Hundred : Word := 0x42C80000#32

/-- The pattern of 256.0 (R91), P_DIV. -/
def Config.f32TwoFiftySix : Word := 0x43800000#32

/-- The pattern of 1024.0 (R91), H_DIV. -/
def Config.f32TenTwentyFour : Word := 0x44800000#32

/-- FREE VALUE: `div64(a, 0)`, which R89 calls "not defined, and never evaluated" (log entry 9). Safe: nothing constrains it. -/
opaque Config.div64ByZero : DWord → DWord

/-- FREE VALUE: `f32_div` on a pair of patterns, or with a quotient, to which R91 gives no value; R94 and R96 say the block never meets
one (log entry 10). Safe: nothing constrains it. -/
opaque Config.f32DivOutside : Word → Word → Word

end Sys2Proof
end

