-- ==== Sys2Proof/Machine/Numerics.lean ====
section
/-! DEFINITION. The integer and floating-point primitives of `40_numerics.md`, each computed exactly on the integers its operands stand
for and then narrowed, as its rule writes it. -/

namespace Sys2Proof.Machine

/-- `wrap32(x)`: the mathematical integer reduced to s32. -/
def wrap32 (x : Int) : Word := BitVec.ofInt 32 x

/-- `wrap64(x)`: the mathematical integer reduced to s64. -/
def wrap64 (x : Int) : DWord := BitVec.ofInt 64 x

/-- R80. -/
def add32 (a b : Word) : Word := wrap32 (a.toInt + b.toInt)

/-- R81. -/
def sub32 (a b : Word) : Word := wrap32 (a.toInt - b.toInt)

/-- R82. -/
def mul32 (a b : Word) : Word := wrap32 (a.toInt * b.toInt)

/-- R83. -/
def shl32 (a : Word) (n : Nat) : Word := wrap32 (a.toInt * 2 ^ n)

/-- R84: floor division by `2^n`. -/
def asr32 (a : Word) (n : Nat) : Word := wrap32 (a.toInt.fdiv (2 ^ n))

/-- R85. -/
def add64 (a b : DWord) : DWord := wrap64 (a.toInt + b.toInt)

/-- R85. -/
def sub64 (a b : DWord) : DWord := wrap64 (a.toInt - b.toInt)

/-- R86. -/
def mul64 (a b : DWord) : DWord := wrap64 (a.toInt * b.toInt)

/-- R87. -/
def shl64 (a : DWord) (n : Nat) : DWord := wrap64 (a.toInt * 2 ^ n)

/-- R88: floor division by `2^n`. -/
def asr64 (a : DWord) (n : Nat) : DWord := wrap64 (a.toInt.fdiv (2 ^ n))

/-- R89: the quotient of the magnitudes with the product of the signs; the divisor 0 gives the free value of log entry 9. -/
def div64 (a b : DWord) : DWord :=
  if b = 0#64 then Config.div64ByZero a
  else wrap64 (a.toInt.sign * b.toInt.sign * ((a.toInt.natAbs / b.toInt.natAbs : Nat) : Int))

/-- R90: a u8 by value into the 32-bit datapath. -/
def widenU8 (v : Byte) : Word := wrap32 (v.toNat : Int)

/-- R90: an s8 by value into the 32-bit datapath. -/
def widenS8 (v : Byte) : Word := wrap32 v.toInt

/-- R90: a u16 by value into the 32-bit datapath. -/
def widenU16 (v : Half) : Word := wrap32 (v.toNat : Int)

/-- R90: an s16 by value into the 32-bit datapath. -/
def widenS16 (v : Half) : Word := wrap32 v.toInt

/-- R90: a u16 by value into the 64-bit datapath. -/
def widenU16To64 (v : Half) : DWord := wrap64 (v.toNat : Int)

/-- R90: an s16 by value into the 64-bit datapath. -/
def widenS16To64 (v : Half) : DWord := wrap64 v.toInt

/-- R90: an s32 by value into the 64-bit datapath. -/
def widenS32To64 (v : Word) : DWord := wrap64 v.toInt

/-- R98: `lo` if `v < lo`, `hi` if `v > hi`, else `v`, compared as signed values. -/
def clamp (v lo hi : Word) : Word :=
  if v.toInt < lo.toInt then lo else if hi.toInt < v.toInt then hi else v

/-- The natural number nearest to `n / d`, ties to even (R92 to R94). -/
def roundNearestEven (n d : Nat) : Nat :=
  if 2 * (n % d) < d then n / d
  else if d < 2 * (n % d) then n / d + 1
  else n / d + (n / d) % 2

/-- The binary32 pattern with sign `neg`, biased exponent `ex` and 24-bit significand `sig` from `2^23` on (R91). A significand that
rounding carried to `2^24` moves into the exponent field by the same sum. -/
def f32Pack (neg : Bool) (ex sig : Nat) : Word :=
  BitVec.ofNat 32 ((if neg then 2 ^ 31 else 0) + ex * 2 ^ 23 + (sig - 2 ^ 23))

/-- The significand, from `2^23` on, of a positive integer whose leading bit is bit `l` (R92, R93). -/
def f32SigOfNat (m l : Nat) : Nat :=
  if l ≤ 23 then m * 2 ^ (23 - l) else roundNearestEven m (2 ^ (l - 23))

/-- The binary32 value nearest to an integer, ties to even, in a single rounding; zero is positive (R92, R93). -/
def f32OfInt (i : Int) : Word :=
  if i = 0 then 0#32
  else f32Pack (decide (i < 0)) (i.natAbs.log2 + 127) (f32SigOfNat i.natAbs i.natAbs.log2)

/-- R92. -/
def i32ToF32 (i : Word) : Word := f32OfInt i.toInt

/-- R93. -/
def i64ToF32 (i : DWord) : Word := f32OfInt i.toInt

/-- Bit 31 of a pattern, `s` (R91). -/
def f32Neg (w : Word) : Bool := w.msb

/-- Bits 30 to 23 of a pattern, `e` (R91). -/
def f32Exp (w : Word) : Nat := (w.extractLsb 30 23).toNat

/-- Bits 22 to 0 of a pattern, `f` (R91). -/
def f32Frac (w : Word) : Nat := (w.extractLsb 22 0).toNat

/-- The pattern denotes zero (R91). -/
def f32IsZero (w : Word) : Bool := f32Exp w == 0 && f32Frac w == 0

/-- The pattern denotes a non-zero value by R91: `1 <= e <= 254`. -/
def f32IsNormal (w : Word) : Bool := 1 ≤ f32Exp w && f32Exp w ≤ 254

/-- The significand of a normal pattern, `2^23 * (1 + f / 2^23)`. -/
def f32Sig (w : Word) : Nat := 2 ^ 23 + f32Frac w

/-- The rounded significand of the quotient of two significands (R94). -/
def f32DivSig (a b : Word) : Nat :=
  if f32Sig b ≤ f32Sig a then roundNearestEven (f32Sig a * 2 ^ 23) (f32Sig b)
  else roundNearestEven (f32Sig a * 2 ^ 24) (f32Sig b)

/-- The biased exponent of the quotient of two normal patterns (R94). -/
def f32DivExp (a b : Word) : Int :=
  if f32Sig b ≤ f32Sig a then (f32Exp a : Int) - f32Exp b + 127
  else (f32Exp a : Int) - f32Exp b + 126

/-- R94: binary32 division, correctly rounded to nearest, ties to even. Where R91 gives an operand or the quotient no value the result is
the free value of log entry 10. -/
def f32Div (a b : Word) : Word :=
  if f32IsZero a && f32IsNormal b then f32Pack (f32Neg a ^^ f32Neg b) 0 (2 ^ 23)
  else if f32IsNormal a && f32IsNormal b && decide (1 ≤ f32DivExp a b) && decide (f32DivExp a b ≤ 254) then
    f32Pack (f32Neg a ^^ f32Neg b) (f32DivExp a b).toNat (f32DivSig a b)
  else Config.f32DivOutside a b

end Sys2Proof.Machine
end

