-- ==== Sys2Proof/Syntax.lean ====
section
/-! DEFINITION. The syntax of the block: agents, ports, the eleven command opcodes, the eight stages (R60, R61, R65), and the
values of the two sequencers and of the lock (R24, R30, R31). -/

namespace Sys2Proof

/-- The three agents that take steps (R44). -/
inductive Agent where
  | producer
  | consumer
  | host
deriving DecidableEq, Repr

/-- The three command ports (R61). -/
inductive Port where
  | pp
  | cp
  | hp
deriving DecidableEq, Repr

/-- One constructor per row of `opcode_table.json`: the eleven commands of R63, with the payload of R41, and the eight stages of R65,
which have no opcode and are selected by a sequencer. -/
inductive Instr where
  | ldcala (b : Payload 26)
  | ldcalb (b : Payload 8)
  | start
  | sample (b : Payload 8)
  | nosamp
  | poll
  | rdp
  | rdt
  | rdh
  | rdstat
  | reset
  | compt
  | compp
  | comph
  | cmtAcq
  | cmtWr
  | cmtRel
  | pollCopy
  | pollRel
deriving DecidableEq, Repr

/-- The names of the eleven listed opcodes (R63); their values are `Opcode.byte`. -/
inductive Opcode where
  | ldcala
  | ldcalb
  | start
  | sample
  | nosamp
  | poll
  | rdp
  | rdt
  | rdh
  | rdstat
  | reset
deriving DecidableEq, Repr

/-- The values of the producer sequencer (R30); code 7 is never written and has no constructor (U12, log entry 11). -/
inductive PSeq where
  | idle
  | compt
  | compp
  | comph
  | cmtAcq
  | cmtWr
  | cmtRel
deriving DecidableEq, Repr

/-- The values of the consumer sequencer (R31); code 3 is never written and has no constructor (U12, log entry 11). -/
inductive CSeq where
  | idle
  | pollCopy
  | pollRel
deriving DecidableEq, Repr

/-- The values of the lock (R24); value 3 is never written and has no constructor (U12, log entry 11). -/
inductive Lock where
  | free
  | prod
  | cons
deriving DecidableEq, Repr

/-- How one instruction stands in the hardware: a frame on a port (R62), or a code in a sequencer (R65). -/
inductive Encoding where
  | frame (p : Port) (bytes : List Byte)
  | pseq (code : BitVec 3)
  | cseq (code : BitVec 2)
deriving DecidableEq, Repr

/-- What the decoder finds at the front of a port's bytes: not yet a whole frame (R62); a frame whose opcode is reserved, or is listed
for another port, either of which is taken and ignored (R67); or a command. `rest` is what follows the frame. -/
inductive Parsed where
  | incomplete
  | reservedOpcode (rest : List Byte)
  | wrongPort (rest : List Byte)
  | command (i : Instr) (rest : List Byte)
deriving DecidableEq, Repr

end Sys2Proof
end

