-- ==== Sys2Proof/Decode.lean ====
section
/-! DEFINITION. The opcode map, the frame decoder (total on any bytes), the stage codes, the encoder, and the host's
`decodeTableWord` (`30_encoding.md`). -/

namespace Sys2Proof

/-- The opcode values of R63. -/
def Opcode.byte : Opcode → Byte
  | .ldcala => 0x01#8
  | .ldcalb => 0x02#8
  | .start => 0x03#8
  | .sample => 0x10#8
  | .nosamp => 0x11#8
  | .poll => 0x20#8
  | .rdp => 0x21#8
  | .rdt => 0x22#8
  | .rdh => 0x23#8
  | .rdstat => 0x30#8
  | .reset => 0xF0#8

/-- The port that accepts each opcode (R63). -/
def Opcode.port : Opcode → Port
  | .ldcala | .ldcalb | .start | .sample | .nosamp => .pp
  | .poll | .rdp | .rdt | .rdh => .cp
  | .rdstat | .reset => .hp

/-- The number of payload bytes of each opcode (R63). -/
def Opcode.payloadLength : Opcode → Nat
  | .ldcala => Config.lenCalA
  | .ldcalb => Config.lenCalB
  | .sample => Config.lenBurst
  | .start | .nosamp | .poll | .rdp | .rdt | .rdh | .rdstat | .reset => 0

/-- The eleven rows of R63, in the table's order. -/
def Opcode.all : List Opcode :=
  [.ldcala, .ldcalb, .start, .sample, .nosamp, .poll, .rdp, .rdt, .rdh, .rdstat, .reset]

/-- The row of R63 whose opcode value is `b`; none for a reserved value (R67). -/
def Opcode.ofByte (b : Byte) : Option Opcode :=
  Opcode.all.find? (fun o => o.byte == b)

/-- The payload length that an opcode byte fixes: "1 for every other opcode" is the whole frame of a reserved value (R62). -/
def payloadLengthOf (b : Byte) : Nat :=
  match Opcode.ofByte b with
  | some o => o.payloadLength
  | none => 0

/-- A byte list taken as a payload of exactly `n` bytes. -/
def payloadOf (n : Nat) (l : List Byte) : Option (Payload n) :=
  if h : l.length = n then some ⟨l.toArray, by simp [h]⟩ else none

/-- The command of a listed opcode with the payload bytes `body`. -/
def commandOf (o : Opcode) (body : List Byte) : Option Instr :=
  match o with
  | .ldcala => (payloadOf 26 body).map .ldcala
  | .ldcalb => (payloadOf 8 body).map .ldcalb
  | .start => some .start
  | .sample => (payloadOf 8 body).map .sample
  | .nosamp => some .nosamp
  | .poll => some .poll
  | .rdp => some .rdp
  | .rdt => some .rdt
  | .rdh => some .rdh
  | .rdstat => some .rdstat
  | .reset => some .reset

/-- The front of a port's bytes read as one frame (R62): the opcode byte fixes the length, and the block acts only when all bytes are
present. A frame is illegal when its opcode is reserved, or is listed for a port other than `p`; it is taken whole (R67; log entries 2
and 3). -/
def parseFrame (p : Port) (bytes : List Byte) : Parsed :=
  match bytes with
  | [] => .incomplete
  | op :: tail =>
    match Opcode.ofByte op with
    | none => .reservedOpcode tail
    | some o =>
      if tail.length < o.payloadLength then .incomplete
      else if o.port = p then
        match commandOf o (tail.take o.payloadLength) with
        | some i => .command i (tail.drop o.payloadLength)
        | none => .incomplete
      else .wrongPort (tail.drop o.payloadLength)

/-- The code of each value of the producer sequencer (R30). -/
def PSeq.code : PSeq → BitVec 3
  | .idle => 0#3
  | .compt => 1#3
  | .compp => 2#3
  | .comph => 3#3
  | .cmtAcq => 4#3
  | .cmtWr => 5#3
  | .cmtRel => 6#3

/-- The code of each value of the consumer sequencer (R31). -/
def CSeq.code : CSeq → BitVec 2
  | .idle => 0#2
  | .pollCopy => 1#2
  | .pollRel => 2#2

/-- The producer sequencer value a code stands for; 7 stands for none (R30). -/
def PSeq.ofCode (c : BitVec 3) : Option PSeq :=
  [PSeq.idle, .compt, .compp, .comph, .cmtAcq, .cmtWr, .cmtRel].find? (fun q => q.code == c)

/-- The consumer sequencer value a code stands for; 3 stands for none (R31). -/
def CSeq.ofCode (c : BitVec 2) : Option CSeq :=
  [CSeq.idle, .pollCopy, .pollRel].find? (fun q => q.code == c)

/-- The stage that a PSEQ code selects (R65); 0 is idle and 7 is never written. -/
def decodePseq (c : BitVec 3) : Option Instr :=
  match c.toNat with
  | 1 => some .compt
  | 2 => some .compp
  | 3 => some .comph
  | 4 => some .cmtAcq
  | 5 => some .cmtWr
  | 6 => some .cmtRel
  | _ => none

/-- The stage that a CSEQ code selects (R65); 0 is idle and 3 is never written. -/
def decodeCseq (c : BitVec 2) : Option Instr :=
  match c.toNat with
  | 1 => some .pollCopy
  | 2 => some .pollRel
  | _ => none

/-- The instruction that an encoding stands for: a frame must be exactly one whole command on its port, a code must select a stage. -/
def decode : Encoding → Option Instr
  | .frame p bytes =>
    match parseFrame p bytes with
    | .command i [] => some i
    | .command _ (_ :: _) => none
    | .reservedOpcode _ => none
    | .wrongPort _ => none
    | .incomplete => none
  | .pseq c => decodePseq c
  | .cseq c => decodeCseq c

/-- The encoding of each instruction, from the tables of R63 and R65. -/
def encode : Instr → Encoding
  | .ldcala b => .frame .pp (0x01#8 :: b.toList)
  | .ldcalb b => .frame .pp (0x02#8 :: b.toList)
  | .start => .frame .pp [0x03#8]
  | .sample b => .frame .pp (0x10#8 :: b.toList)
  | .nosamp => .frame .pp [0x11#8]
  | .poll => .frame .cp [0x20#8]
  | .rdp => .frame .cp [0x21#8]
  | .rdt => .frame .cp [0x22#8]
  | .rdh => .frame .cp [0x23#8]
  | .rdstat => .frame .hp [0x30#8]
  | .reset => .frame .hp [0xF0#8]
  | .compt => .pseq 1#3
  | .compp => .pseq 2#3
  | .comph => .pseq 3#3
  | .cmtAcq => .pseq 4#3
  | .cmtWr => .pseq 5#3
  | .cmtRel => .pseq 6#3
  | .pollCopy => .cseq 1#2
  | .pollRel => .cseq 2#2

/-- The port on which a byte is a listed opcode; a reserved byte is put on PP, where it is as illegal as anywhere. -/
def portOfByte (b : Byte) : Port :=
  match Opcode.ofByte b with
  | some o => o.port
  | none => .pp

/-- `n` bytes of a table word, byte 0 (bits 7 to 0) first. -/
def bytesOfTableWord : Nat → Nat → List Byte
  | 0, _ => []
  | n + 1, w => BitVec.ofNat 8 w :: bytesOfTableWord n (w / 256)

/-- The frame that a table word stands for: its low byte is the opcode, which fixes how many bytes follow (R62). -/
def frameOfTableWord (w : Nat) : List Byte :=
  bytesOfTableWord (1 + payloadLengthOf (BitVec.ofNat 8 w)) w

/-- The encoding that a table word stands for: the rows of format PSEQ have 3 bits, those of format CSEQ have 2, and every other word is
a frame (log entry 12). -/
def encodingOfTableWord (nbits w : Nat) : Encoding :=
  if nbits = 3 then .pseq (BitVec.ofNat 3 w)
  else if nbits = 2 then .cseq (BitVec.ofNat 2 w)
  else .frame (portOfByte (BitVec.ofNat 8 w)) (frameOfTableWord w)

/-- The instruction the decoder reads from a table word. -/
def decodeTableWord (nbits w : Nat) : Option Instr :=
  decode (encodingOfTableWord nbits (w % 2 ^ nbits))

end Sys2Proof
end

