-- ==== Sys2Proof/Machine/State.lean ====
section
/-! DEFINITION. The state of the block (`10_state.md`), the reasons a step can stop, and the state after reset (R36, R200). -/

namespace Sys2Proof.Machine

/-- The temperature coefficients (R10): T1 is u16, T2 and T3 are s16. -/
structure CalT where
  t1 : Half
  t2 : Half
  t3 : Half
deriving DecidableEq, Repr

/-- The pressure coefficients (R10): P1 is u16, P2 to P9 are s16. -/
structure CalP where
  p1 : Half
  p2 : Half
  p3 : Half
  p4 : Half
  p5 : Half
  p6 : Half
  p7 : Half
  p8 : Half
  p9 : Half
deriving DecidableEq, Repr

/-- The humidity coefficients (R11): H1 is u8, H2 to H5 are s16, H6 is s8. -/
structure CalH where
  h1 : Byte
  h2 : Half
  h3 : Half
  h4 : Half
  h5 : Half
  h6 : Byte
deriving DecidableEq, Repr

/-- The coefficient file CAL (R10 to R12). -/
structure Cal where
  t : CalT
  p : CalP
  h : CalH
deriving DecidableEq, Repr

/-- The raw-sample registers RAW.P, RAW.T, RAW.H, s32 each (R14). -/
structure Raw where
  p : Word
  t : Word
  h : Word
deriving DecidableEq, Repr

/-- One triple of binary32 patterns: pressure, temperature, humidity (R16 to R19). -/
structure Triple where
  p : Word
  t : Word
  h : Word
deriving DecidableEq, Repr

/-- What stands outside the registers, on the three ports (the model's own fields, log entries 1 and 5): the bytes each agent has put
on its port, the order in which the agents take their next steps, and the words returned so far, oldest first. -/
structure Ports where
  pp : List Byte
  cp : List Byte
  hp : List Byte
  turns : List Agent
  cpOut : List Word
  hpOut : List Word
deriving DecidableEq, Repr

/-- Every register of `10_state.md`, and the ports. -/
structure State where
  cal : Cal
  calaLoaded : Bool
  calbLoaded : Bool
  started : Bool
  raw : Raw
  tFine : Word
  stage : Triple
  stagePok : Bool
  shared : Triple
  hasSample : Bool
  lock : Lock
  out : Triple
  pseq : PSeq
  cseq : CSeq
  ports : Ports
deriving DecidableEq, Repr

/-- No fault: "The block raises no exception, takes no trap, sets no fault bit and has no error register" (R180). The type has no
constructor, so no step of the model can end in a fault. -/
inductive Fault where
deriving DecidableEq, Repr

/-- The reasons for which a step has no meaning. -/
inductive Refusal where
  /-- Raised by an arm of `exec` whose instruction has no meaning yet (no arm is, at present). Safe: the model stops. -/
  | notModelled (mnemonic : String)
deriving DecidableEq, Repr

/-- The outcome of a step of the block. -/
abbrev Result := Host.Outcome State Fault Refusal

/-- The coefficient file after reset: all 18 are 0 (R36). -/
def Cal.reset : Cal where
  t := { t1 := 0#16, t2 := 0#16, t3 := 0#16 }
  p := { p1 := 0#16, p2 := 0#16, p3 := 0#16, p4 := 0#16, p5 := 0#16, p6 := 0#16, p7 := 0#16, p8 := 0#16, p9 := 0#16 }
  h := { h1 := 0#8, h2 := 0#16, h3 := 0#16, h4 := 0#16, h5 := 0#16, h6 := 0#8 }

/-- Three positive zeros: STAGE and SHARED after reset (R36). -/
def Triple.zero : Triple where
  p := 0x00000000#32
  t := 0x00000000#32
  h := 0x00000000#32

/-- OUT after reset: `OUT_RESET` (R36). -/
def Triple.outReset : Triple where
  p := Config.outReset
  t := Config.outReset
  h := Config.outReset

/-- Nothing stands on any port and no agent has a turn. DESIGN CHOICE (log entry 5): the ports are not registers of the block. -/
def Ports.quiet : Ports where
  pp := []
  cp := []
  hp := []
  turns := []
  cpOut := []
  hpOut := []

/-- The state after reset: every register at its value of R36. -/
def State.reset : State where
  cal := Cal.reset
  calaLoaded := false
  calbLoaded := false
  started := false
  raw := { p := 0#32, t := 0#32, h := 0#32 }
  tFine := 0#32
  stage := Triple.zero
  stagePok := false
  shared := Triple.zero
  hasSample := false
  lock := .free
  out := Triple.outReset
  pseq := .idle
  cseq := .idle
  ports := Ports.quiet

end Sys2Proof.Machine
end

