-- ==== Sys2Proof/Machine/Compensation.lean ====
section
/-! DEFINITION. The three compensation functions comp_T (R122), comp_P (R132) and comp_H (R142), each the fixed sequence of primitives
its rule gives (R97: no step is merged or reordered). -/

namespace Sys2Proof.Machine

/-- The fine temperature of R122: `var1 + var2`. -/
def tempFine (adcT : Word) (c : CalT) : Word :=
  let x1 := sub32 (asr32 adcT 3) (shl32 (widenU16 c.t1) 1)
  let var1 := asr32 (mul32 x1 (widenS16 c.t2)) 11
  let d := sub32 (asr32 adcT 4) (widenU16 c.t1)
  let var2 := asr32 (mul32 (asr32 (mul32 d d) 12) (widenS16 c.t3)) 14
  add32 var1 var2

/-- The temperature in hundredths of a degree, `T` of R122. -/
def tempCenti (tFine : Word) : Word :=
  asr32 (add32 (mul32 tFine 5#32) 128#32) 8

/-- `T / 100.0` as binary32 (R122). -/
def tempFloat (centi : Word) : Word :=
  f32Div (i32ToF32 centi) Config.f32Hundred

/-- The results `(t_fine, T, temp)` of comp_T. -/
structure TempResult where
  tFine : Word
  centi : Word
  temp : Word
deriving DecidableEq, Repr

/-- comp_T (R122). -/
def compT (adcT : Word) (c : CalT) : TempResult where
  tFine := tempFine adcT c
  centi := tempCenti (tempFine adcT c)
  temp := tempFloat (tempCenti (tempFine adcT c))

/-- `v1` of R132. -/
def pressV1 (tFine : Word) : DWord :=
  sub64 (widenS32To64 tFine) 128000#64

/-- `v2` of R132. -/
def pressV2 (v1 : DWord) (c : CalP) : DWord :=
  let v2a := mul64 (mul64 v1 v1) (widenS16To64 c.p6)
  let v2b := add64 v2a (shl64 (mul64 v1 (widenS16To64 c.p5)) 17)
  add64 v2b (shl64 (widenS16To64 c.p4) 35)

/-- The product before the shift by 33 of R132, `(2^47 + w) * P1`. -/
def pressScaled (v1 : DWord) (c : CalP) : DWord :=
  let w := add64 (asr64 (mul64 (mul64 v1 v1) (widenS16To64 c.p3)) 8) (shl64 (mul64 v1 (widenS16To64 c.p2)) 12)
  mul64 (add64 140737488355328#64 w) (widenU16To64 c.p1)

/-- The guarded divisor `dv` of R132. -/
def pressDivisor (tFine : Word) (c : CalP) : DWord :=
  asr64 (pressScaled (pressV1 tFine) c) 33

/-- The numerator `num` of R132. -/
def pressNumerator (adcP tFine : Word) (c : CalP) : DWord :=
  let p0 := sub64 1048576#64 (widenS32To64 adcP)
  mul64 (sub64 (shl64 p0 31) (pressV2 (pressV1 tFine) c)) 3125#64

/-- The Q24.8 pressure `p` of R132 from the quotient `q`. -/
def pressFixed (q : DWord) (c : CalP) : DWord :=
  let t9 := asr64 (mul64 (mul64 (widenS16To64 c.p9) (asr64 q 13)) (asr64 q 13)) 25
  let t8 := asr64 (mul64 (widenS16To64 c.p8) q) 19
  add64 (asr64 (add64 (add64 q t9) t8) 8) (shl64 (widenS16To64 c.p7) 4)

/-- `p / 256.0` as binary32 (R132). -/
def pressFloat (p : DWord) : Word :=
  f32Div (i64ToF32 p) Config.f32TwoFiftySix

/-- The results `(p, press)` of comp_P when it does not abort. -/
structure PressResult where
  fixed : DWord
  press : Word
deriving DecidableEq, Repr

/-- comp_P (R132); none is ABORT: the divisor is tested before the division, and nothing after it is evaluated. (Irreducible, so that
Lean's simplifier does not try to evaluate the test on a symbolic state; `unfold compP` and the kernel see through it.) -/
@[irreducible] def compP (adcP tFine : Word) (c : CalP) : Option PressResult :=
  if pressDivisor tFine c = 0#64 then none
  else
    let q := div64 (pressNumerator adcP tFine c) (pressDivisor tFine c)
    some { fixed := pressFixed q c, press := pressFloat (pressFixed q c) }

/-- `a` of R142. -/
def humA (adcH v : Word) (c : CalH) : Word :=
  let a0 := sub32 (sub32 (shl32 adcH 14) (shl32 (widenS16 c.h4) 20)) (mul32 (widenS16 c.h5) v)
  asr32 (add32 a0 16384#32) 15

/-- `b` of R142. -/
def humB (v : Word) (c : CalH) : Word :=
  let b1 := asr32 (mul32 v (widenS8 c.h6)) 10
  let b2 := add32 (asr32 (mul32 v (widenS16 c.h3)) 11) 32768#32
  let b3 := add32 (asr32 (mul32 b1 b2) 10) 2097152#32
  asr32 (add32 (mul32 b3 (widenS16 c.h2)) 8192#32) 14

/-- `y` of R142: the pre-scaling integer, before the clamp. -/
def humPreClamp (adcH tFine : Word) (c : CalH) : Word :=
  let v := sub32 tFine 76800#32
  let x := mul32 (humA adcH v c) (humB v c)
  let s := asr32 x 15
  sub32 x (asr32 (mul32 (asr32 (mul32 s s) 7) (widenU8 c.h1)) 4)

/-- `h` of R142: the clamp, then the shift by 12. -/
def humFixed (y : Word) : Word :=
  asr32 (clamp y 0#32 Config.humClampHi) 12

/-- `h / 1024.0` as binary32 (R142). -/
def humFloat (h : Word) : Word :=
  f32Div (i32ToF32 h) Config.f32TenTwentyFour

/-- The results `(h, hum)` of comp_H. -/
structure HumResult where
  fixed : Word
  hum : Word
deriving DecidableEq, Repr

/-- comp_H (R142). -/
def compH (adcH tFine : Word) (c : CalH) : HumResult where
  fixed := humFixed (humPreClamp adcH tFine c)
  hum := humFloat (humFixed (humPreClamp adcH tFine c))

end Sys2Proof.Machine
end

