-- ==== Sys2Proof/Machine/Flags.lean ====
section
/-! DEFINITION. The flags: the condition of START, and the STATUS view (R22, R23, R174). The block has no condition codes; every other
flag write stands in the operation of `Ops.lean` or the meaning that makes it. -/

namespace Sys2Proof.Machine

/-- A one-bit flag as a bit. -/
def flagBit (f : Bool) : BitVec 1 := BitVec.ofBool f

/-- The code of each value of LOCK (R24). -/
def lockCode : Lock → BitVec 2
  | .free => 0#2
  | .prod => 1#2
  | .cons => 2#2

/-- START takes effect: not started, and both blocks loaded (R102). -/
def State.mayStart (s : State) : Bool :=
  !s.started && s.calaLoaded && s.calbLoaded

/-- The STATUS view (R23): 20 zero bits, CSEQ, PSEQ, LOCK, STAGE_POK, HAS_SAMPLE, STARTED, CALB_LOADED, CALA_LOADED (R174). -/
def State.status (s : State) : Word :=
  0#20 ++ s.cseq.code ++ s.pseq.code ++ lockCode s.lock ++ flagBit s.stagePok ++ flagBit s.hasSample ++ flagBit s.started
    ++ flagBit s.calbLoaded ++ flagBit s.calaLoaded

end Sys2Proof.Machine
end

