-- ==== Sys2Proof/Machine/Operands.lean ====
section
/-! DEFINITION. How fields are cut out of the payloads (R100, R101, R111; byte orders R42, R43). -/

namespace Sys2Proof.Machine

/-- A little-endian 16-bit field, `{hi, lo}` (R43). -/
def le16 (lo hi : Byte) : Half := hi ++ lo

/-- A 12-bit field, upper 8 bits from one byte and lower 4 from a nibble, sign-extended into an s16 (R101). -/
def packed12 (upper : Byte) (nibble : BitVec 4) : Half := (upper ++ nibble).signExtend 16

/-- `b[3:0]`. -/
def lowNibble (b : Byte) : BitVec 4 := b.extractLsb' 0 4

/-- `b[7:4]`. -/
def highNibble (b : Byte) : BitVec 4 := b.extractLsb' 4 4

/-- The temperature coefficients of block A (R100). -/
def calTOfBlockA (b : Payload 26) : CalT where
  t1 := le16 b[0] b[1]
  t2 := le16 b[2] b[3]
  t3 := le16 b[4] b[5]

/-- The pressure coefficients of block A (R100). -/
def calPOfBlockA (b : Payload 26) : CalP where
  p1 := le16 b[6] b[7]
  p2 := le16 b[8] b[9]
  p3 := le16 b[10] b[11]
  p4 := le16 b[12] b[13]
  p5 := le16 b[14] b[15]
  p6 := le16 b[16] b[17]
  p7 := le16 b[18] b[19]
  p8 := le16 b[20] b[21]
  p9 := le16 b[22] b[23]

/-- The coefficient file after block A: T1 to T3, P1 to P9 and H1 are replaced; `b[24]` is not used (R100). -/
def loadBlockA (b : Payload 26) (c : Cal) : Cal where
  t := calTOfBlockA b
  p := calPOfBlockA b
  h := { c.h with h1 := b[25] }

/-- The coefficient file after block B: H2 to H6 are replaced; `b[7]` is not used (R101). -/
def loadBlockB (b : Payload 8) (c : Cal) : Cal :=
  { c with
    h :=
      { h1 := c.h.h1
        h2 := le16 b[0] b[1]
        h3 := b[2].zeroExtend 16
        h4 := packed12 b[3] (lowNibble b[4])
        h5 := packed12 b[5] (highNibble b[4])
        h6 := b[6] } }

/-- A 20-bit big-endian count, `{b0, b1, b2[7:4]}`, in an s32 register (R111). -/
def adc20 (b0 b1 b2 : Byte) : Word := (b0 ++ b1 ++ highNibble b2).zeroExtend 32

/-- A 16-bit big-endian count in an s32 register (R111). -/
def adc16 (b6 b7 : Byte) : Word := (b6 ++ b7).zeroExtend 32

/-- The three decode functions adc_P, adc_T, adc_H of R111. -/
def rawOfBurst (b : Payload 8) : Raw where
  p := adc20 b[0] b[1] b[2]
  t := adc20 b[3] b[4] b[5]
  h := adc16 b[6] b[7]

end Sys2Proof.Machine
end

