-- ==== Sys2Proof/Machine/Ops.lean ====
section
/-! DEFINITION. The named operations over the registers and the ports that the meanings share. The block takes no exception and returns
from none (R180, R185, R186); what stands in that place is the skip, `ignored`. -/

namespace Sys2Proof.Machine

/-- The skip (R67, R181, R185): the command or step ends and no register changes. -/
def ignored (s : State) : Result := .next s

/-- `PSEQ <- q`. -/
def State.setPseq (q : PSeq) (s : State) : State := { s with pseq := q }

/-- `CSEQ <- q`. -/
def State.setCseq (q : CSeq) (s : State) : State := { s with cseq := q }

/-- `LOCK <- l`. -/
def State.setLock (l : Lock) (s : State) : State := { s with lock := l }

/-- The atomic test and write of an acquire step (R55): the new owner if LOCK was FREE, none if it was not. -/
def State.tryAcquire (owner : Lock) (s : State) : Option State :=
  if s.lock = .free then some (s.setLock owner) else none

/-- The publication of one cycle (R151): all three fields and the flag in one step. -/
def State.publish (s : State) : State := { s with shared := s.stage, hasSample := true }

/-- The copy of the poll (R155): nothing without a fresh sample; else all three fields, and the flag is cleared. -/
def State.takeSample (s : State) : State :=
  if s.hasSample then { s with out := s.shared, hasSample := false } else s

/-- A word returned on CP (R61). -/
def State.returnCp (w : Word) (s : State) : State :=
  { s with ports := { s.ports with cpOut := s.ports.cpOut ++ [w] } }

/-- A word returned on HP (R61). -/
def State.returnHp (w : Word) (s : State) : State :=
  { s with ports := { s.ports with hpOut := s.ports.hpOut ++ [w] } }

/-- Every register to its reset value (R170, R36); the ports are no registers and stay (log entry 6). -/
def State.clearRegisters (s : State) : State := { State.reset with ports := s.ports }

/-- The bytes that stand on a port. -/
def State.stream (p : Port) (s : State) : List Byte :=
  match p with
  | .pp => s.ports.pp
  | .cp => s.ports.cp
  | .hp => s.ports.hp

/-- A port with other bytes on it. -/
def State.setStream (p : Port) (bytes : List Byte) (s : State) : State :=
  match p with
  | .pp => { s with ports := { s.ports with pp := bytes } }
  | .cp => { s with ports := { s.ports with cp := bytes } }
  | .hp => { s with ports := { s.ports with hp := bytes } }

/-- The turns still to come. -/
def State.setTurns (ts : List Agent) (s : State) : State :=
  { s with ports := { s.ports with turns := ts } }

end Sys2Proof.Machine
end

