-- ==== Sys2Proof/Machine/Commit.lean ====
section
/-! DEFINITION. The commit stages CMT_ACQ (R150), CMT_WR (R151), CMT_REL (R152). -/

namespace Sys2Proof.Machine

/-- CMT_ACQ (R150): enabled iff LOCK = FREE; otherwise the producer waits and no register changes (R187). -/
def execCmtAcq (s : State) : Result :=
  match s.tryAcquire .prod with
  | some t => .next (t.setPseq .cmtWr)
  | none => ignored s

/-- CMT_WR (R151). -/
def execCmtWr (s : State) : Result := .next (s.publish.setPseq .cmtRel)

/-- CMT_REL (R152). -/
def execCmtRel (s : State) : Result := .next ((s.setLock .free).setPseq .idle)

end Sys2Proof.Machine
end

