-- ==== Sys2Proof/Machine/HostOps.lean ====
section
/-! DEFINITION. The output reads RDP, RDT, RDH, the status read RDSTAT, and RESET (`47_host_ops.md`). -/

namespace Sys2Proof.Machine

/-- RDP (R171). -/
def execRdp (s : State) : Result := .next (s.returnCp s.out.p)

/-- RDT (R172). -/
def execRdt (s : State) : Result := .next (s.returnCp s.out.t)

/-- RDH (R173). -/
def execRdh (s : State) : Result := .next (s.returnCp s.out.h)

/-- RDSTAT (R174). -/
def execRdstat (s : State) : Result := .next (s.returnHp s.status)

/-- RESET (R170). -/
def execReset (s : State) : Result := .next s.clearRegisters

end Sys2Proof.Machine
end

