-- ==== Sys2Proof/Machine/Init.lean ====
section
/-! DEFINITION. The initialisation commands LDCALA, LDCALB, START (`41_calibration_load.md`). -/

namespace Sys2Proof.Machine

/-- LDCALA (R100). -/
def execLdcala (b : Payload 26) (s : State) : Result :=
  if s.started then ignored s
  else .next { s with cal := loadBlockA b s.cal, calaLoaded := true }

/-- LDCALB (R101). -/
def execLdcalb (b : Payload 8) (s : State) : Result :=
  if s.started then ignored s
  else .next { s with cal := loadBlockB b s.cal, calbLoaded := true }

/-- START (R102). -/
def execStart (s : State) : Result :=
  if s.mayStart then .next { s with started := true } else ignored s

end Sys2Proof.Machine
end

