-- ==== Sys2Proof/Machine/Poll.lean ====
section
/-! DEFINITION. The poll: POLL (R154), POLL_COPY (R155), POLL_REL (R156). -/

namespace Sys2Proof.Machine

/-- POLL: the try step (R154). -/
def execPoll (s : State) : Result :=
  match s.tryAcquire .cons with
  | some t => .next (t.setCseq .pollCopy)
  | none => ignored s

/-- POLL_COPY (R155). -/
def execPollCopy (s : State) : Result := .next (s.takeSample.setCseq .pollRel)

/-- POLL_REL (R156). -/
def execPollRel (s : State) : Result := .next ((s.setLock .free).setCseq .idle)

end Sys2Proof.Machine
end

