-- ==== Sys2Proof/Machine/Sampling.lean ====
section
/-! DEFINITION. The sampling commands SAMPLE and NOSAMP (`42_sample_decode.md`). -/

namespace Sys2Proof.Machine

/-- SAMPLE: the decode step (R110, R111). -/
def execSample (b : Payload 8) (s : State) : Result :=
  if s.started then .next { s with raw := rawOfBurst b, stagePok := false, pseq := .compt }
  else ignored s

/-- NOSAMP: no register changes in any state (R113). -/
def execNosamp (s : State) : Result := ignored s

end Sys2Proof.Machine
end

