-- ==== Sys2Proof/Machine/Stages.lean ====
section
/-! DEFINITION. The compensation stages COMPT (R121), COMPP (R131), COMPH (R141). -/

namespace Sys2Proof.Machine

/-- COMPT (R121). -/
def execCompt (s : State) : Result :=
  let r := compT s.raw.t s.cal.t
  .next { s with tFine := r.tFine, stage := { s.stage with t := r.temp }, pseq := .compp }

/-- COMPP (R131): on ABORT only PSEQ is written. -/
def execCompp (s : State) : Result :=
  match compP s.raw.p s.tFine s.cal.p with
  | none => .next (s.setPseq .comph)
  | some r => .next { s with stage := { s.stage with p := r.press }, stagePok := true, pseq := .comph }

/-- COMPH (R141): the commit follows only if the pressure stage of this cycle succeeded. -/
def execComph (s : State) : Result :=
  let r := compH s.raw.h s.tFine s.cal.h
  .next { s with stage := { s.stage with h := r.hum }, pseq := if s.stagePok then .cmtAcq else .idle }

end Sys2Proof.Machine
end

