-- ==== Sys2Proof/Machine/Dispatch.lean ====
section
/-! DEFINITION. The dispatch: one arm per constructor of Instr. -/

namespace Sys2Proof.Machine

def exec (i : Instr) (s : State) : Host.Outcome State Fault Refusal :=
  match i with
  | .ldcala b => Sys2Proof.Machine.execLdcala b s
  | .ldcalb b => Sys2Proof.Machine.execLdcalb b s
  | .start => Sys2Proof.Machine.execStart s
  | .sample b => Sys2Proof.Machine.execSample b s
  | .nosamp => Sys2Proof.Machine.execNosamp s
  | .poll => Sys2Proof.Machine.execPoll s
  | .rdp => Sys2Proof.Machine.execRdp s
  | .rdt => Sys2Proof.Machine.execRdt s
  | .rdh => Sys2Proof.Machine.execRdh s
  | .rdstat => Sys2Proof.Machine.execRdstat s
  | .reset => Sys2Proof.Machine.execReset s
  | .compt => Sys2Proof.Machine.execCompt s
  | .compp => Sys2Proof.Machine.execCompp s
  | .comph => Sys2Proof.Machine.execComph s
  | .cmtAcq => Sys2Proof.Machine.execCmtAcq s
  | .cmtWr => Sys2Proof.Machine.execCmtWr s
  | .cmtRel => Sys2Proof.Machine.execCmtRel s
  | .pollCopy => Sys2Proof.Machine.execPollCopy s
  | .pollRel => Sys2Proof.Machine.execPollRel s

end Sys2Proof.Machine
end

