-- ==== Sys2Proof/Machine/Fetch.lean ====
section
/-! DEFINITION. Which instruction the next step runs: the turn, then the stage that the agent's sequencer selects, or else the command
at the front of its port (R30, R31, R65, R66). It also holds the work behind the host's `withFetchWord`. -/

namespace Sys2Proof.Machine

/-- The port of each agent (R44, R61). -/
def portOf : Agent → Port
  | .producer => .pp
  | .consumer => .cp
  | .host => .hp

/-- The agent of each port (R61). -/
def agentOf : Port → Agent
  | .pp => .producer
  | .cp => .consumer
  | .hp => .host

/-- The stage in progress of an agent, selected by its sequencer (R65); the host has none. -/
def State.stageInProgress (a : Agent) (s : State) : Option Instr :=
  match a with
  | .producer => decodePseq s.pseq.code
  | .consumer => decodeCseq s.cseq.code
  | .host => none

/-- The accepting step of a port (R66): a command leaves the port and is run; an illegal frame leaves the port and nothing else happens
(R67); while there is no whole frame nothing happens (R62, R194). -/
def State.accept (p : Port) (s : State) : Option Instr × State :=
  match parseFrame p (s.stream p) with
  | .incomplete => (none, s)
  | .reservedOpcode rest => (none, s.setStream p rest)
  | .wrongPort rest => (none, s.setStream p rest)
  | .command i rest => (some i, s.setStream p rest)

/-- One turn of an agent: the next stage of the command it has in progress, else the acceptance of its next command. A command that
arrives early waits (R66). -/
def State.fetchTurn (a : Agent) (s : State) : Option Instr × State :=
  match s.stageInProgress a with
  | some i => (some i, s)
  | none => s.accept (portOf a)

/-- What the next step runs, and the state in which it runs it. -/
def State.fetch (s : State) : Option Instr × State :=
  match s.ports.turns with
  | [] => (none, s)
  | a :: ts => (s.setTurns ts).fetchTurn a

/-- An encoding placed so that the next step runs it: a frame in front of its port's bytes, with the port's sequencer idle, or a code in
its sequencer, and the turn of the agent first. A code that selects no stage leaves the sequencer idle. -/
def State.placeEncoding (e : Encoding) (s : State) : State :=
  match e with
  | .frame p bytes =>
    let t := (s.setStream p (bytes ++ s.stream p)).setTurns (agentOf p :: s.ports.turns)
    match p with
    | .pp => t.setPseq .idle
    | .cp => t.setCseq .idle
    | .hp => t
  | .pseq c => (s.setTurns (.producer :: s.ports.turns)).setPseq ((PSeq.ofCode c).getD .idle)
  | .cseq c => (s.setTurns (.consumer :: s.ports.turns)).setCseq ((CSeq.ofCode c).getD .idle)

end Sys2Proof.Machine
end

