-- ==== Sys2Proof/Machine/Step.lean ====
section
/-! DEFINITION. One step of the machine: one turn of one agent (R48), and the host's way to place an instruction. -/

namespace Sys2Proof.Machine

/-- One step: what `fetch` finds is run; where it finds nothing to run, no register changes. -/
def step (s : State) : Host.Outcome State Fault Refusal :=
  match s.fetch with
  | (some i, t) => exec i t
  | (none, t) => .next t

/-- The state with the instruction of a table word placed so that the next step runs it (log entry 12). -/
def State.withFetchWord (s : State) (nbits w : Nat) : State :=
  s.placeEncoding (encodingOfTableWord nbits (w % 2 ^ nbits))

end Sys2Proof.Machine
end

