-- ==== Sys2Proof/Safety.lean ====
section
/-! DEFINITION. The terms in which claims are stated: the invariants of the block, what a run publishes, the value of a binary32 pattern,
and the spec's C-like forms of the three compensation functions. Nothing of the machine uses this file. -/

namespace Sys2Proof.Machine

/-- `sext_N(v)` of `00_scope.md` section 5: `v mod 2^N`, minus `2^N` if that is at least `2^(N-1)`. -/
def sextInt (n : Nat) (v : Int) : Int :=
  if v % 2 ^ n ≥ 2 ^ (n - 1) then v % 2 ^ n - 2 ^ n else v % 2 ^ n

/-! ### Invariants -/

/-- R24: LOCK = PROD iff PSEQ is CMT_WR or CMT_REL, and LOCK = CONS iff CSEQ is POLL_COPY or POLL_REL. -/
abbrev State.LockOwned (s : State) : Prop :=
  (s.lock = .prod ↔ s.pseq = .cmtWr ∨ s.pseq = .cmtRel) ∧ (s.lock = .cons ↔ s.cseq = .pollCopy ∨ s.cseq = .pollRel)

/-- R12, R22: START took effect only when both blocks were loaded, and a stage runs only after START. -/
abbrev State.InitOrdered (s : State) : Prop :=
  (s.started = true → s.calaLoaded = true ∧ s.calbLoaded = true) ∧ (s.pseq ≠ .idle → s.started = true)
    ∧ (s.hasSample = true → s.started = true)

/-- R21, R112: STAGE_POK is 0 until the pressure stage has run, and a commit happens only with STAGE_POK = 1. -/
abbrev State.PokOrdered (s : State) : Prop :=
  (s.pseq = .compt ∨ s.pseq = .compp → s.stagePok = false)
    ∧ (s.pseq = .cmtAcq ∨ s.pseq = .cmtWr ∨ s.pseq = .cmtRel → s.stagePok = true)

/-- R14: the ranges of the raw-sample registers. -/
abbrev State.RawInRange (s : State) : Prop :=
  s.raw.p.toNat < 2 ^ 20 ∧ s.raw.t.toNat < 2 ^ 20 ∧ s.raw.h.toNat < 2 ^ 16

/-- R11: the ranges of the humidity coefficients that are narrower than their registers. -/
abbrev State.CalInRange (s : State) : Prop :=
  s.cal.h.h3.toNat ≤ 255 ∧ (-2048 ≤ s.cal.h.h4.toInt ∧ s.cal.h.h4.toInt ≤ 2047)
    ∧ (-2048 ≤ s.cal.h.h5.toInt ∧ s.cal.h.h5.toInt ≤ 2047)

/-- The invariant of the control registers and of the integer registers' ranges. -/
abbrev State.Inv (s : State) : Prop :=
  s.LockOwned ∧ s.InitOrdered ∧ s.PokOrdered ∧ s.RawInRange ∧ s.CalInRange

/-- Positive zero or a pattern with `1 <= e <= 254`: no NaN, infinity, subnormal or negative zero (R19, R96). -/
def f32Ordinary (w : Word) : Bool := w == 0#32 || f32IsNormal w

/-- The three fields of a triple are ordinary. -/
def Triple.ordinary (x : Triple) : Bool := f32Ordinary x.p && f32Ordinary x.t && f32Ordinary x.h

/-- R19: the nine floating-point registers hold ordinary patterns. -/
abbrev State.FloatsOrdinary (s : State) : Prop :=
  s.stage.ordinary = true ∧ s.shared.ordinary = true ∧ s.out.ordinary = true

/-- The temperature results of the burst in RAW stand in T_FINE and STAGE.T. -/
abbrev State.TempDone (s : State) : Prop :=
  s.tFine = (compT s.raw.t s.cal.t).tFine ∧ s.stage.t = (compT s.raw.t s.cal.t).temp

/-- The pressure stage has run on the burst in RAW: STAGE_POK says whether it succeeded, and then its result stands in STAGE.P. -/
abbrev State.PressDone (s : State) : Prop :=
  s.stagePok = (compP s.raw.p s.tFine s.cal.p).isSome
    ∧ (∀ r ∈ compP s.raw.p s.tFine s.cal.p, s.stage.p = r.press)

/-- The humidity result of the burst in RAW stands in STAGE.H. -/
abbrev State.HumDone (s : State) : Prop :=
  s.stage.h = (compH s.raw.h s.tFine s.cal.h).hum

/-- R15, R51, R112: at each point of a cycle the stage registers hold what the stages so far give for this cycle's burst. -/
abbrev State.CycleInv (s : State) : Prop :=
  (s.pseq ≠ .idle → s.started = true)
    ∧ (s.pseq = .compt ∨ s.pseq = .compp → s.stagePok = false)
    ∧ (s.pseq = .compp ∨ s.pseq = .comph ∨ s.pseq = .cmtAcq ∨ s.pseq = .cmtWr → s.TempDone)
    ∧ (s.pseq = .comph ∨ s.pseq = .cmtAcq ∨ s.pseq = .cmtWr → s.PressDone)
    ∧ (s.pseq = .cmtAcq ∨ s.pseq = .cmtWr → s.HumDone ∧ s.stagePok = true)

/-! ### Runs -/

/-- The triple that the next step publishes, if it is a CMT_WR (R151). -/
def State.publication (s : State) : Option Triple :=
  if s.fetch.1 = some .cmtWr then some s.stage else none

/-- The triples that the next `k` steps publish, in their order: STAGE as it stood at each CMT_WR. -/
def publishedIn : Nat → State → List Triple
  | 0, _ => []
  | k + 1, s =>
    s.publication.toList ++
      match step s with
      | .next t => publishedIn k t
      | .fault _ => []
      | .refused _ => []

/-- The agent has no command in progress, so its port accepts (R66); the host always does. -/
def State.portIdle (p : Port) (s : State) : Bool :=
  match p with
  | .pp => s.pseq == .idle
  | .cp => s.cseq == .idle
  | .hp => true

/-- The temperature, the pressure (if it does not abort) and the humidity of one burst as one triple: what a cycle publishes (R112).
(Irreducible for the simplifier's sake, as `compP` is.) -/
@[irreducible] def tripleOfRaw (r : Raw) (c : Cal) : Option Triple :=
  let t := compT r.t c.t
  (compP r.p t.tFine c.p).map fun q => { p := q.press, t := t.temp, h := (compH r.h t.tFine c.h).hum }

/-- A triple that may stand in SHARED or OUT: the reset one, or, once started, what the eight bytes of one burst give (R111) under the
coefficients in CAL. -/
abbrev State.Genuine (x : Triple) (s : State) : Prop :=
  x = Triple.zero ∨ x = Triple.outReset ∨ (s.started = true ∧ ∃ b : Payload 8, tripleOfRaw (rawOfBurst b) s.cal = some x)

/-! ### The value of a binary32 pattern -/

/-- The value R91 gives a pattern: 0 for zero, and `(-1)^s * 2^(e-127) * (1 + f / 2^23)` for `1 <= e <= 254`. Claims use it of ordinary
patterns only. -/
def f32Value (w : Word) : ℚ :=
  if f32IsNormal w then
    (if f32Neg w then -1 else 1) * (2 : ℚ) ^ ((f32Exp w : ℤ) - 127) * (1 + (f32Frac w : ℚ) / 2 ^ 23)
  else 0

/-- `w` is the binary32 value nearest to `x`, and of two equally near ones the one whose fraction field is even (R92). -/
def f32Nearest (w : Word) (x : ℚ) : Prop :=
  ∀ v : Word, f32Ordinary v = true →
    |f32Value w - x| ≤ |f32Value v - x|
      ∧ (|f32Value w - x| = |f32Value v - x| → f32Value v ≠ f32Value w → f32Frac w % 2 = 0)

/-! ### The C-like forms of R122, R132 and R142, in the machine arithmetic of bit vectors -/

/-- `t_fine` of R122's C-like form. -/
def cTempFine (adc : Word) (c : CalT) : Word :=
  let t1 := c.t1.zeroExtend 32
  let t2 := c.t2.signExtend 32
  let t3 := c.t3.signExtend 32
  let var1 := ((adc.sshiftRight 3 - (t1 <<< 1)) * t2).sshiftRight 11
  let var2 := ((((adc.sshiftRight 4 - t1) * (adc.sshiftRight 4 - t1)).sshiftRight 12) * t3).sshiftRight 14
  var1 + var2

/-- `T` of R122's C-like form. -/
def cTempCenti (tFine : Word) : Word := (tFine * 5#32 + 128#32).sshiftRight 8

/-- The last `var1` before the shift by 33 of R132's C-like form. -/
def cPressProduct (tFine : Word) (c : CalP) : DWord :=
  let var1 := tFine.signExtend 64 - 128000#64
  let w := (var1 * var1 * c.p3.signExtend 64).sshiftRight 8 + ((var1 * c.p2.signExtend 64) <<< 12)
  ((1#64 <<< 47) + w) * c.p1.zeroExtend 64

/-- The guarded `var1` of R132's C-like form. -/
def cPressDivisor (tFine : Word) (c : CalP) : DWord := (cPressProduct tFine c).sshiftRight 33

/-- `p` of R132's C-like form, when the guard lets it be computed. -/
def cPressFixed (adc tFine : Word) (c : CalP) : DWord :=
  let var1 := tFine.signExtend 64 - 128000#64
  let var2 := var1 * var1 * c.p6.signExtend 64
  let var2 := var2 + ((var1 * c.p5.signExtend 64) <<< 17)
  let var2 := var2 + (c.p4.signExtend 64 <<< 35)
  let p := 1048576#64 - adc.signExtend 64
  let p := (((p <<< 31) - var2) * 3125#64).sdiv (cPressDivisor tFine c)
  let var1 := (c.p9.signExtend 64 * p.sshiftRight 13 * p.sshiftRight 13).sshiftRight 25
  let var2 := (c.p8.signExtend 64 * p).sshiftRight 19
  (p + var1 + var2).sshiftRight 8 + (c.p7.signExtend 64 <<< 4)

/-- `v` before the clamp of R142's C-like form. -/
def cHumPreClamp (adc tFine : Word) (c : CalH) : Word :=
  let v := tFine - 76800#32
  let a := ((adc <<< 14) - (c.h4.signExtend 32 <<< 20) - (c.h5.signExtend 32 * v) + 16384#32).sshiftRight 15
  let b1 := (v * c.h6.signExtend 32).sshiftRight 10
  let b2 := (v * c.h3.signExtend 32).sshiftRight 11 + 32768#32
  let b := (((b1 * b2).sshiftRight 10 + 2097152#32) * c.h2.signExtend 32 + 8192#32).sshiftRight 14
  let x := a * b
  x - (((x.sshiftRight 15 * x.sshiftRight 15).sshiftRight 7) * c.h1.zeroExtend 32).sshiftRight 4

/-- `h` of R142's C-like form: the lower bound, then the upper, then the shift. -/
def cHumFixed (y : Word) : Word :=
  let v := if y.slt 0#32 then 0#32 else y
  let v := if (419430400#32).slt v then 419430400#32 else v
  v.sshiftRight 12

end Sys2Proof.Machine
end

