-- ==== Sys2Proof/WellFormed.lean ====
section
/-! DEFINITION. Well-formedness: what an encoding must be to stand for an instruction. A term of `Instr` is well formed by its type (the
payload length is in the type, the stage codes are constructors); the checks are therefore made on the raw encoding, one Bool each. -/

namespace Sys2Proof

/-- The frame's first byte is an opcode that R63 lists. -/
def opcodeListed : List Byte → Bool
  | [] => false
  | op :: _ => (Opcode.ofByte op).isSome

/-- The frame's opcode is listed for port `p` (R63, R67). -/
def opcodeOnPort (p : Port) : List Byte → Bool
  | [] => false
  | op :: _ => (Opcode.ofByte op).any (fun o => o.port == p)

/-- The frame is as long as its opcode says (R62: 27, 9, 9, or 1 bytes). -/
def frameLengthRight : List Byte → Bool
  | [] => false
  | op :: body => body.length == payloadLengthOf op

/-- The code selects a producer stage (R65: 1 to 6). -/
def pseqCodeSelects (c : BitVec 3) : Bool :=
  1 ≤ c.toNat && c.toNat ≤ 6

/-- The code selects a consumer stage (R65: 1 or 2). -/
def cseqCodeSelects (c : BitVec 2) : Bool :=
  1 ≤ c.toNat && c.toNat ≤ 2

/-- An encoding is well formed when it passes every check that applies to it. -/
def Encoding.wellFormed : Encoding → Bool
  | .frame p bytes => opcodeListed bytes && opcodeOnPort p bytes && frameLengthRight bytes
  | .pseq c => pseqCodeSelects c
  | .cseq c => cseqCodeSelects c

/-- An instruction is well formed when its encoding is. -/
def Instr.wellFormed (i : Instr) : Bool :=
  (encode i).wellFormed

end Sys2Proof
end

