-- ==== Sys2Proof/Certificates/Slice0/Obligations.lean ====
section
/-! DEFINITION. The statements for the provers. Each docstring names the rule of `spec/` it rests on. -/

section

open Sys2Proof Sys2Proof.Machine

/-! ### Encoding -/

/-- R62, R63, R65: no bit of an encoding is dropped. -/
def Obligations.DecodeAfterEncode : Prop :=
  ∀ i : Instr, decode (encode i) = some i

/-- R63, R65: each encoding has one meaning, and a decodable encoding is the one its instruction has. -/
def Obligations.EncodeAfterDecode : Prop :=
  ∀ (e : Encoding) (i : Instr), decode e = some i → e = encode i

/-- R62, R63, R65, R67: what the decoder reads is exactly what passes the checks of `WellFormed.lean`. -/
def Obligations.DecodableIffWellFormed : Prop :=
  ∀ e : Encoding, (decode e).isSome = e.wellFormed

/-- R62: a port takes a command's frame whole, leaves what follows it, and does nothing with a frame that is not all there. -/
def Obligations.PortTakesWholeFrames : Prop :=
  ∀ (i : Instr) (p : Port) (bytes rest : List Byte), encode i = .frame p bytes →
    parseFrame p (bytes ++ rest) = .command i rest
      ∧ ∀ n < bytes.length, parseFrame p (bytes.take n) = .incomplete

/-- R63, R65, R101, R111 (worked examples): words written out from the spec's encodings decode to the instructions they stand for. -/
def Obligations.WrittenWordsDecode : Prop :=
  decode (.frame .pp [0x03#8]) = some .start
    ∧ decode (.frame .pp [0x02#8, 0x6F#8, 0x01#8, 0x00#8, 0x12#8, 0x2D#8, 0x03#8, 0x1E#8, 0x00#8])
      = some (.ldcalb #v[0x6F#8, 0x01#8, 0x00#8, 0x12#8, 0x2D#8, 0x03#8, 0x1E#8, 0x00#8])
    ∧ decode (.frame .pp [0x10#8, 0x65#8, 0x5A#8, 0xC0#8, 0x7E#8, 0xED#8, 0x00#8, 0x75#8, 0x30#8])
      = some (.sample #v[0x65#8, 0x5A#8, 0xC0#8, 0x7E#8, 0xED#8, 0x00#8, 0x75#8, 0x30#8])
    ∧ decode (.frame .pp [0x11#8]) = some .nosamp
    ∧ decode (.frame .cp [0x20#8]) = some .poll
    ∧ decode (.frame .cp [0x22#8]) = some .rdt
    ∧ decode (.frame .hp [0x30#8]) = some .rdstat
    ∧ decode (.frame .hp [0xF0#8]) = some .reset
    ∧ decode (.pseq 2#3) = some .compp
    ∧ decode (.pseq 5#3) = some .cmtWr
    ∧ decode (.cseq 1#2) = some .pollCopy

/-! ### The step -/

/-- R65, R66: a step runs the stage its agent's sequencer selects; with the sequencer idle it takes the command at the front of the
agent's port and runs it. The step adds to `exec` only that the turn, and the command's frame, are gone. Turns are the model's choice
(log entry 1). -/
def Obligations.StepRunsDecodedInstruction : Prop :=
  (∀ (s : State) (ts : List Agent) (i : Instr), s.ports.turns = .producer :: ts → decode (.pseq s.pseq.code) = some i →
      step s = exec i (s.setTurns ts))
    ∧ (∀ (s : State) (ts : List Agent) (i : Instr), s.ports.turns = .consumer :: ts → decode (.cseq s.cseq.code) = some i →
      step s = exec i (s.setTurns ts))
    ∧ (∀ (s : State) (p : Port) (ts : List Agent) (i : Instr) (bytes rest : List Byte),
      s.ports.turns = agentOf p :: ts → s.portIdle p = true → s.stream p = bytes ++ rest →
      decode (.frame p bytes) = some i →
      step s = exec i ((s.setTurns ts).setStream p rest))

/-- R66: a command that arrives while its port's sequencer is not idle waits: the step runs the stage that the sequencer selects, and the
port's bytes are still there. Turns are the model's choice (log entry 1). -/
def Obligations.EarlyCommandWaits : Prop :=
  ∀ (s : State) (p : Port) (ts : List Agent), s.ports.turns = agentOf p :: ts → s.portIdle p = false →
    ∃ i t, ((p = .pp ∧ encode i = .pseq s.pseq.code) ∨ (p = .cp ∧ encode i = .cseq s.cseq.code))
      ∧ s.fetch.1 = some i ∧ step s = exec i (s.setTurns ts) ∧ step s = .next t
      ∧ t.stream p = s.stream p ∧ t.ports.turns = ts

/-- R67: an illegal frame is taken and ignored, and a legal command is ignored in the states in which its rule refuses it. That a frame on
the wrong port is taken with its payload is the model's reading (log entry 3). -/
def Obligations.IllegalAndRefusedCommandsAreIgnored : Prop :=
  (∀ (s : State) (p : Port) (ts : List Agent) (op : Byte) (body rest : List Byte),
      s.ports.turns = agentOf p :: ts → s.portIdle p = true → s.stream p = op :: (body ++ rest) →
      (∀ o : Opcode, o.byte = op → o.port ≠ p ∧ body.length = o.payloadLength) →
      ((∀ o : Opcode, o.byte ≠ op) → body = []) →
      step s = .next ((s.setTurns ts).setStream p rest))
    ∧ (∀ (s : State) (b : Payload 26), s.started = true → exec (.ldcala b) s = .next s)
    ∧ (∀ (s : State) (b : Payload 8), s.started = true → exec (.ldcalb b) s = .next s)
    ∧ (∀ s : State, s.started = true ∨ s.calaLoaded = false ∨ s.calbLoaded = false → exec .start s = .next s)
    ∧ (∀ (s : State) (b : Payload 8), s.started = false → exec (.sample b) s = .next s)

/-- R62, R194: with no turn to take nothing happens, and a turn whose port holds no whole frame changes nothing but the turns
(the model's choice, log entries 1 and 4). -/
def Obligations.NothingHappensWithoutCommand : Prop :=
  (∀ s : State, s.ports.turns = [] → step s = .next s)
    ∧ (∀ (s : State) (p : Port) (ts : List Agent), s.ports.turns = agentOf p :: ts → s.portIdle p = true →
      parseFrame p (s.stream p) = .incomplete → step s = .next (s.setTurns ts))

/-- R180: no run ends in a fault or a refusal. -/
def Obligations.NoRunEverStops : Prop :=
  ∀ (k : Nat) (s : State), ∃ t, core.run k s = .next t

/-! ### Calibration load and start -/

/-- R100: LDCALA, all thirteen coefficients, from their bytes by value; ignored after START. -/
def Obligations.LoadBlockA : Prop :=
  ∀ (b : Payload 26) (s : State),
    let le (lo hi : Byte) : Half := BitVec.ofNat 16 (hi.toNat * 256 + lo.toNat)
    encode (.ldcala b) = .frame .pp (0x01#8 :: b.toList)
      ∧ (s.started = true → exec (.ldcala b) s = .next s)
      ∧ (s.started = false → exec (.ldcala b) s = .next
          { s with
            cal :=
              { t := ⟨le b[0] b[1], le b[2] b[3], le b[4] b[5]⟩
                p := ⟨le b[6] b[7], le b[8] b[9], le b[10] b[11], le b[12] b[13], le b[14] b[15], le b[16] b[17],
                  le b[18] b[19], le b[20] b[21], le b[22] b[23]⟩
                h := { s.cal.h with h1 := b[25] } }
            calaLoaded := true })

/-- R101: LDCALB, the five coefficients with the nibbles of the shared byte; ignored after START. -/
def Obligations.LoadBlockB : Prop :=
  ∀ (b : Payload 8) (s : State),
    encode (.ldcalb b) = .frame .pp (0x02#8 :: b.toList)
      ∧ (s.started = true → exec (.ldcalb b) s = .next s)
      ∧ (s.started = false → exec (.ldcalb b) s = .next
          { s with
            cal :=
              { s.cal with
                h :=
                  { h1 := s.cal.h.h1
                    h2 := BitVec.ofNat 16 (b[1].toNat * 256 + b[0].toNat)
                    h3 := BitVec.ofNat 16 b[2].toNat
                    h4 := BitVec.ofInt 16 (sextInt 12 (b[3].toNat * 16 + b[4].toNat % 16))
                    h5 := BitVec.ofInt 16 (sextInt 12 (b[5].toNat * 16 + b[4].toNat / 16))
                    h6 := b[6] } }
            calbLoaded := true })

/-- R102: START takes effect only when both blocks are loaded and it has not yet taken effect. -/
def Obligations.StartNeedsBothBlocks : Prop :=
  encode .start = .frame .pp [0x03#8]
    ∧ ∀ s : State,
      (s.started = false ∧ s.calaLoaded = true ∧ s.calbLoaded = true → exec .start s = .next { s with started := true })
        ∧ (s.started = true ∨ s.calaLoaded = false ∨ s.calbLoaded = false → exec .start s = .next s)

/-- R12: after START nothing but RESET changes a coefficient or clears STARTED. -/
def Obligations.CoefficientsFrozenAfterStart : Prop :=
  ∀ s t : State, s.started = true → step s = .next t →
    (t.cal = s.cal ∧ t.calaLoaded = s.calaLoaded ∧ t.calbLoaded = s.calbLoaded ∧ t.started = true)
      ∨ s.fetch.1 = some .reset

/-- R203: three producer turns on LDCALA, LDCALB, START reach the initialised state from the reset state. -/
def Obligations.InitialisationReachesLaunchState : Prop :=
  ∀ (a : Payload 26) (b : Payload 8) (ps : Ports) (rest : List Byte) (ts : List Agent),
    ps.pp = 0x01#8 :: a.toList ++ (0x02#8 :: b.toList) ++ 0x03#8 :: rest →
    ps.turns = .producer :: .producer :: .producer :: ts →
    core.run 3 { State.reset with ports := ps } = .next
      { State.reset with
        cal := loadBlockB b (loadBlockA a Cal.reset)
        calaLoaded := true
        calbLoaded := true
        started := true
        ports := { ps with pp := rest, turns := ts } }

/-! ### Sampling -/

/-- R110, R111: SAMPLE decodes the burst, clears STAGE_POK and hands over to COMPT; it is ignored before START. -/
def Obligations.SampleDecodesBurst : Prop :=
  ∀ (b : Payload 8) (s : State),
    encode (.sample b) = .frame .pp (0x10#8 :: b.toList)
      ∧ (s.started = false → exec (.sample b) s = .next s)
      ∧ (s.started = true → exec (.sample b) s = .next
          { s with
            raw :=
              { p := BitVec.ofNat 32 (b[0].toNat * 4096 + b[1].toNat * 16 + b[2].toNat / 16)
                t := BitVec.ofNat 32 (b[3].toNat * 4096 + b[4].toNat * 16 + b[5].toNat / 16)
                h := BitVec.ofNat 32 (b[6].toNat * 256 + b[7].toNat) }
            stagePok := false
            pseq := .compt })

/-- R113: NOSAMP changes no register in any state. -/
def Obligations.NosampChangesNothing : Prop :=
  encode .nosamp = .frame .pp [0x11#8] ∧ ∀ s : State, exec .nosamp s = .next s

/-- R100, R101, R111 (U11): byte 24 of block A, byte 7 of block B and the low nibbles of burst bytes 2 and 5 have no effect. -/
def Obligations.UnusedPayloadBitsHaveNoEffect : Prop :=
  (∀ (b b' : Payload 26) (s : State), (∀ i : Fin 26, i.val ≠ 24 → b[i.val] = b'[i.val]) →
      exec (.ldcala b) s = exec (.ldcala b') s)
    ∧ (∀ (b b' : Payload 8) (s : State), (∀ i : Fin 8, i.val ≠ 7 → b[i.val] = b'[i.val]) →
      exec (.ldcalb b) s = exec (.ldcalb b') s)
    ∧ (∀ (b b' : Payload 8) (s : State), (∀ i : Fin 8, i.val ≠ 2 → i.val ≠ 5 → b[i.val] = b'[i.val]) →
      b[2].toNat / 16 = b'[2].toNat / 16 → b[5].toNat / 16 = b'[5].toNat / 16 →
      exec (.sample b) s = exec (.sample b') s)

/-! ### Compensation -/

/-- R121, R122: COMPT computes the C-like form of R122 and writes T_FINE, STAGE.T and PSEQ. -/
def Obligations.TemperatureStage : Prop :=
  encode .compt = .pseq 1#3
    ∧ ∀ s : State, exec .compt s = .next
      { s with
        tFine := cTempFine s.raw.t s.cal.t
        stage := { s.stage with t := f32Div (i32ToF32 (cTempCenti (cTempFine s.raw.t s.cal.t))) 0x42C80000#32 }
        pseq := .compp }

/-- R131, R132: COMPP tests the divisor of R132's C-like form; it aborts on zero, and otherwise computes the C-like form and writes
STAGE.P and STAGE_POK. PSEQ moves on in both cases. -/
def Obligations.PressureStage : Prop :=
  encode .compp = .pseq 2#3
    ∧ ∀ s : State,
      (cPressDivisor s.tFine s.cal.p = 0#64 → exec .compp s = .next { s with pseq := .comph })
        ∧ (cPressDivisor s.tFine s.cal.p ≠ 0#64 → exec .compp s = .next
          { s with
            stage := { s.stage with p := f32Div (i64ToF32 (cPressFixed s.raw.p s.tFine s.cal.p)) 0x43800000#32 }
            stagePok := true
            pseq := .comph })

/-- R141, R142: COMPH computes the C-like form of R142, clamp then shift then division, writes STAGE.H, and goes on to the commit only if
the pressure stage succeeded. -/
def Obligations.HumidityStage : Prop :=
  encode .comph = .pseq 3#3
    ∧ ∀ s : State, exec .comph s = .next
      { s with
        stage :=
          { s.stage with h := f32Div (i32ToF32 (cHumFixed (cHumPreClamp s.raw.h s.tFine s.cal.h))) 0x44800000#32 }
        pseq := if s.stagePok = true then .cmtAcq else .idle }

/-- R132: the abort happens exactly when the 64-bit product before the shift by 33 lies in 0 to `2^33 - 1`, and always when P1 is 0; a
negative divisor is no abort. -/
def Obligations.AbortExactlyOnSmallProduct : Prop :=
  ∀ (adc tFine : Word) (c : CalP),
    (compP adc tFine c = none ↔ 0 ≤ (cPressProduct tFine c).toInt ∧ (cPressProduct tFine c).toInt < 2 ^ 33)
      ∧ (c.p1 = 0#16 → compP adc tFine c = none)

/-- R142: the humidity is clamped before it is scaled: `h` is 0 to 102400, and the float result is exactly `h / 1024`, so 0 to 100. -/
def Obligations.HumidityInRange : Prop :=
  ∀ (adc tFine : Word) (c : CalH),
    (compH adc tFine c).fixed.toNat ≤ 102400
      ∧ f32Value (compH adc tFine c).hum = ((compH adc tFine c).fixed.toNat : ℚ) / 1024
      ∧ 0 ≤ f32Value (compH adc tFine c).hum ∧ f32Value (compH adc tFine c).hum ≤ 100

/-- R142: a pre-clamp value of at most 0 gives 0.0, and one of at least 419430400 gives 100.0. -/
def Obligations.HumidityClampsAtBounds : Prop :=
  ∀ (adc tFine : Word) (c : CalH),
    ((cHumPreClamp adc tFine c).toInt ≤ 0 → (compH adc tFine c).hum = 0x00000000#32)
      ∧ (419430400 ≤ (cHumPreClamp adc tFine c).toInt → (compH adc tFine c).hum = 0x42C80000#32)

/-! ### Arithmetic -/

/-- R80 to R83, R85 to R87: sums, differences, products and left shifts are the exact integer reduced into the signed range. -/
def Obligations.IntegerPrimitivesWrap : Prop :=
  (∀ a b : Word,
      (add32 a b).toInt = sextInt 32 (a.toInt + b.toInt) ∧ (sub32 a b).toInt = sextInt 32 (a.toInt - b.toInt)
        ∧ (mul32 a b).toInt = sextInt 32 (a.toInt * b.toInt))
    ∧ (∀ (a : Word) (n : Nat), n ≤ 31 → (shl32 a n).toInt = sextInt 32 (a.toInt * 2 ^ n))
    ∧ (∀ a b : DWord,
      (add64 a b).toInt = sextInt 64 (a.toInt + b.toInt) ∧ (sub64 a b).toInt = sextInt 64 (a.toInt - b.toInt)
        ∧ (mul64 a b).toInt = sextInt 64 (a.toInt * b.toInt))
    ∧ (∀ (a : DWord) (n : Nat), n ≤ 63 → (shl64 a n).toInt = sextInt 64 (a.toInt * 2 ^ n))

/-- R84, R88: a right shift is the floor of the quotient by the power of two, with no wrap. -/
def Obligations.RightShiftsFloor : Prop :=
  (∀ (a : Word) (n : Nat), n ≤ 31 → (asr32 a n).toInt = ⌊(a.toInt : ℚ) / 2 ^ n⌋)
    ∧ (∀ (a : DWord) (n : Nat), n ≤ 63 → (asr64 a n).toInt = ⌊(a.toInt : ℚ) / 2 ^ n⌋)

/-- R89: the quotient is truncated toward zero and wrapped; only `-2^63 / -1` wraps. -/
def Obligations.DivisionTruncates : Prop :=
  (∀ a b : DWord, b ≠ 0#64 → (div64 a b).toInt = sextInt 64 (a.toInt.tdiv b.toInt))
    ∧ (∀ a b : DWord, b ≠ 0#64 → ¬(a.toInt = -2 ^ 63 ∧ b.toInt = -1) → (div64 a b).toInt = a.toInt.tdiv b.toInt)
    ∧ (∀ a b : DWord, a.toInt = -2 ^ 63 → b.toInt = -1 → (div64 a b).toInt = -2 ^ 63)

/-- R92, R93: an integer of magnitude below `2^24` is converted exactly; zero is positive zero. -/
def Obligations.SmallIntegersConvertExactly : Prop :=
  (∀ i : Word, i.toInt.natAbs < 2 ^ 24 → f32Value (i32ToF32 i) = (i.toInt : ℚ))
    ∧ (∀ i : DWord, i.toInt.natAbs < 2 ^ 24 → f32Value (i64ToF32 i) = (i.toInt : ℚ))
    ∧ i32ToF32 0#32 = 0x00000000#32 ∧ i64ToF32 0#64 = 0x00000000#32

/-- R92, R93: the conversion gives the nearest binary32 value, ties to even, in one rounding. -/
def Obligations.ConversionIsNearest : Prop :=
  (∀ i : Word, f32Nearest (i32ToF32 i) (i.toInt : ℚ)) ∧ (∀ i : DWord, f32Nearest (i64ToF32 i) (i.toInt : ℚ))

/-- R94: division of a converted integer, from an s32 (R92) or an s64 (R93), by 256.0 and by 1024.0 is exact, and by 100.0 it gives the
nearest binary32 value, ties to even. -/
def Obligations.DivisionByConstantsIsNearest : Prop :=
  (∀ i : Word,
      f32Value (f32Div (i32ToF32 i) 0x43800000#32) = f32Value (i32ToF32 i) / 256
        ∧ f32Value (f32Div (i32ToF32 i) 0x44800000#32) = f32Value (i32ToF32 i) / 1024
        ∧ f32Nearest (f32Div (i32ToF32 i) 0x42C80000#32) (f32Value (i32ToF32 i) / 100))
    ∧ ∀ i : DWord,
      f32Value (f32Div (i64ToF32 i) 0x43800000#32) = f32Value (i64ToF32 i) / 256
        ∧ f32Value (f32Div (i64ToF32 i) 0x44800000#32) = f32Value (i64ToF32 i) / 1024
        ∧ f32Nearest (f32Div (i64ToF32 i) 0x42C80000#32) (f32Value (i64ToF32 i) / 100)

/-! ### Commit -/

/-- R150: CMT_ACQ takes a free lock; with the lock held it waits and changes nothing. -/
def Obligations.CommitAcquires : Prop :=
  encode .cmtAcq = .pseq 4#3
    ∧ ∀ s : State,
      (s.lock = .free → exec .cmtAcq s = .next { s with lock := .prod, pseq := .cmtWr })
        ∧ (s.lock ≠ .free → exec .cmtAcq s = .next s)

/-- R151: CMT_WR publishes the three stage results and sets HAS_SAMPLE, in one step. -/
def Obligations.CommitPublishes : Prop :=
  encode .cmtWr = .pseq 5#3
    ∧ ∀ s : State, exec .cmtWr s = .next
      { s with shared := ⟨s.stage.p, s.stage.t, s.stage.h⟩, hasSample := true, pseq := .cmtRel }

/-- R152: CMT_REL frees the lock and ends the SAMPLE command. -/
def Obligations.CommitReleases : Prop :=
  encode .cmtRel = .pseq 6#3 ∧ ∀ s : State, exec .cmtRel s = .next { s with lock := .free, pseq := .idle }

/-! ### Poll -/

/-- R154: the try step takes a free lock; otherwise the POLL is over and nothing changes. -/
def Obligations.PollTries : Prop :=
  encode .poll = .frame .cp [0x20#8]
    ∧ ∀ s : State,
      (s.lock = .free → exec .poll s = .next { s with lock := .cons, cseq := .pollCopy })
        ∧ (s.lock ≠ .free → exec .poll s = .next s)

/-- R155: POLL_COPY copies all three fields and clears the flag when a fresh sample is pending, and else only moves CSEQ. -/
def Obligations.PollCopies : Prop :=
  encode .pollCopy = .cseq 1#2
    ∧ ∀ s : State,
      (s.hasSample = true → exec .pollCopy s = .next
          { s with out := ⟨s.shared.p, s.shared.t, s.shared.h⟩, hasSample := false, cseq := .pollRel })
        ∧ (s.hasSample = false → exec .pollCopy s = .next { s with cseq := .pollRel })

/-- R156: POLL_REL frees the lock and ends the POLL command. -/
def Obligations.PollReleases : Prop :=
  encode .pollRel = .cseq 2#2 ∧ ∀ s : State, exec .pollRel s = .next { s with lock := .free, cseq := .idle }

/-- R154 to R157: a whole POLL, with no other agent between its steps: three steps that leave the lock free, with the flag cleared and OUT
holding the shared triple if a fresh one was pending, or one step that changes nothing when the lock is held. -/
def Obligations.WholePoll : Prop :=
  ∀ (s : State) (cp : List Byte) (ts : List Agent), s.cseq = .idle → s.ports.cp = 0x20#8 :: cp →
    (s.lock = .free → s.ports.turns = .consumer :: .consumer :: .consumer :: ts →
        core.run 3 s = .next
          { s with
            out := if s.hasSample = true then s.shared else s.out
            hasSample := false
            ports := { s.ports with cp := cp, turns := ts } })
      ∧ (s.lock ≠ .free → s.ports.turns = .consumer :: ts →
        step s = .next { s with ports := { s.ports with cp := cp, turns := ts } })

/-- R158: the interleavings of one commit with one poll, and the poll retried after it was turned away. `P` is a producer turn, `C` a
consumer turn. In the first order the poll finds what was pending before the commit. -/
def Obligations.CommitPollInterleavings : Prop :=
  ∀ (s : State) (cp : List Byte) (ts : List Agent),
    s.lock = .free → s.pseq = .cmtAcq → s.cseq = .idle → s.ports.cp = 0x20#8 :: cp →
    let run (k : Nat) (order : List Agent) := core.run k (s.setTurns (order ++ ts))
    let P := Agent.producer
    let C := Agent.consumer
    (∃ t, run 6 [C, C, C, P, P, P] = .next t ∧ (t.out = if s.hasSample = true then s.shared else s.out) ∧ t.hasSample = true
        ∧ t.shared = s.stage)
      ∧ (∃ t, run 2 [C, P] = .next t ∧ t.pseq = .cmtAcq ∧ t.lock = .cons)
      ∧ (∃ t, run 3 [C, C, P] = .next t ∧ t.pseq = .cmtAcq ∧ t.lock = .cons)
      ∧ (∃ t, run 4 [P, C, P, P] = .next t ∧ t.out = s.out ∧ t.hasSample = true ∧ t.lock = .free ∧ t.cseq = .idle)
      ∧ (∃ t, run 4 [P, P, C, P] = .next t ∧ t.out = s.out ∧ t.hasSample = true ∧ t.lock = .free ∧ t.cseq = .idle)
      ∧ (∃ t, run 6 [P, P, P, C, C, C] = .next t ∧ t.out = s.stage ∧ t.hasSample = false ∧ t.lock = .free)
      ∧ (∀ cp', cp = 0x20#8 :: cp' →
        ∃ t, run 7 [P, C, P, P, C, C, C] = .next t ∧ t.out = s.stage ∧ t.hasSample = false ∧ t.lock = .free)

/-- R56: a producer that waits at CMT_ACQ while the consumer holds the lock gets it after the consumer's remaining steps, two at most,
and its next turn. -/
def Obligations.ProducerWaitEnds : Prop :=
  ∀ (s : State) (ts : List Agent), s.pseq = .cmtAcq → s.lock = .cons →
    (s.cseq = .pollCopy → s.ports.turns = .consumer :: .consumer :: .producer :: ts →
        ∃ t, core.run 3 s = .next t ∧ t.lock = .prod ∧ t.pseq = .cmtWr)
      ∧ (s.cseq = .pollRel → s.ports.turns = .consumer :: .producer :: ts →
        ∃ t, core.run 2 s = .next t ∧ t.lock = .prod ∧ t.pseq = .cmtWr)

/-! ### Host operations -/

/-- R171, R172, R173: the three reads return one word each on CP and change no register. The list of returned words is the model's
choice (log entry 5). -/
def Obligations.OutputReads : Prop :=
  encode .rdp = .frame .cp [0x21#8] ∧ encode .rdt = .frame .cp [0x22#8] ∧ encode .rdh = .frame .cp [0x23#8]
    ∧ ∀ s : State,
      exec .rdp s = .next { s with ports := { s.ports with cpOut := s.ports.cpOut ++ [s.out.p] } }
        ∧ exec .rdt s = .next { s with ports := { s.ports with cpOut := s.ports.cpOut ++ [s.out.t] } }
        ∧ exec .rdh s = .next { s with ports := { s.ports with cpOut := s.ports.cpOut ++ [s.out.h] } }

/-- R23, R174: RDSTAT returns the STATUS view on HP, each field at its place and bits 31 to 12 zero, and changes no register.
The list of returned words is the model's choice (log entry 5). -/
def Obligations.StatusRead : Prop :=
  encode .rdstat = .frame .hp [0x30#8]
    ∧ ∀ s : State, ∃ w : Word,
      exec .rdstat s = .next { s with ports := { s.ports with hpOut := s.ports.hpOut ++ [w] } }
        ∧ w.toNat = s.calaLoaded.toNat + 2 * s.calbLoaded.toNat + 4 * s.started.toNat + 8 * s.hasSample.toNat
          + 16 * s.stagePok.toNat + 32 * (match s.lock with | .free => 0 | .prod => 1 | .cons => 2)
          + 128 * (match s.pseq with
            | .idle => 0 | .compt => 1 | .compp => 2 | .comph => 3 | .cmtAcq => 4 | .cmtWr => 5 | .cmtRel => 6)
          + 1024 * (match s.cseq with | .idle => 0 | .pollCopy => 1 | .pollRel => 2)

/-- R170, R36: RESET writes every register to its reset value in any state. The model's choice (log entry 6): what stands on the ports
stays. OUT at zero is the value the model takes for `OUT_RESET` (log entry 7). -/
def Obligations.ResetWritesEveryRegister : Prop :=
  encode .reset = .frame .hp [0xF0#8]
    ∧ ∀ s : State, exec .reset s = .next
      { cal :=
          { t := ⟨0#16, 0#16, 0#16⟩
            p := ⟨0#16, 0#16, 0#16, 0#16, 0#16, 0#16, 0#16, 0#16, 0#16⟩
            h := ⟨0#8, 0#16, 0#16, 0#16, 0#16, 0#8⟩ }
        calaLoaded := false
        calbLoaded := false
        started := false
        raw := ⟨0#32, 0#32, 0#32⟩
        tFine := 0#32
        stage := ⟨0#32, 0#32, 0#32⟩
        stagePok := false
        shared := ⟨0#32, 0#32, 0#32⟩
        hasSample := false
        lock := .free
        out := ⟨0#32, 0#32, 0#32⟩
        pseq := .idle
        cseq := .idle
        ports := s.ports }

/-! ### Whole-machine rules -/

/-- `10_state.md` section 1: which instruction writes which register; RESET writes every one. -/
def Obligations.RegistersWrittenOnlyByTheirOwners : Prop :=
  ∀ (i : Instr) (s t : State), exec i s = .next t → i ≠ .reset →
    (t.cal ≠ s.cal → (∃ b, i = .ldcala b) ∨ ∃ b, i = .ldcalb b)
      ∧ (t.calaLoaded ≠ s.calaLoaded → ∃ b, i = .ldcala b)
      ∧ (t.calbLoaded ≠ s.calbLoaded → ∃ b, i = .ldcalb b)
      ∧ (t.started ≠ s.started → i = .start)
      ∧ (t.raw ≠ s.raw → ∃ b, i = .sample b)
      ∧ (t.tFine ≠ s.tFine → i = .compt)
      ∧ (t.stage.p ≠ s.stage.p → i = .compp)
      ∧ (t.stage.t ≠ s.stage.t → i = .compt)
      ∧ (t.stage.h ≠ s.stage.h → i = .comph)
      ∧ (t.stagePok ≠ s.stagePok → (∃ b, i = .sample b) ∨ i = .compp)
      ∧ (t.shared ≠ s.shared → i = .cmtWr)
      ∧ (t.hasSample ≠ s.hasSample → i = .cmtWr ∨ i = .pollCopy)
      ∧ (t.lock ≠ s.lock → i = .cmtAcq ∨ i = .cmtRel ∨ i = .poll ∨ i = .pollRel)
      ∧ (t.out ≠ s.out → i = .pollCopy)
      ∧ (t.pseq ≠ s.pseq → (∃ b, i = .sample b) ∨ i = .compt ∨ i = .compp ∨ i = .comph ∨ i = .cmtAcq ∨ i = .cmtWr ∨ i = .cmtRel)
      ∧ (t.cseq ≠ s.cseq → i = .poll ∨ i = .pollCopy ∨ i = .pollRel)

/-- R30, R112: PSEQ moves only along 0, 1, 2, 3, then 4, 5, 6, 0 or straight to 0; it stays where it is while another agent moves and
while the producer waits; RESET makes it idle. -/
def Obligations.ProducerSequence : Prop :=
  ∀ s t : State, step s = .next t →
    t.pseq = s.pseq
      ∨ (s.pseq, t.pseq) ∈ [(PSeq.idle, PSeq.compt), (.compt, .compp), (.compp, .comph), (.cmtAcq, .cmtWr), (.cmtWr, .cmtRel),
        (.cmtRel, .idle)]
      ∨ (s.pseq = .comph ∧ t.pseq = if s.stagePok = true then .cmtAcq else .idle)
      ∨ (s.fetch.1 = some .reset ∧ t.pseq = .idle)

/-- R31: CSEQ moves only along 0, 1, 2, 0; it stays where it is while another agent moves and when a POLL is turned away; RESET makes it
idle. -/
def Obligations.ConsumerSequence : Prop :=
  ∀ s t : State, step s = .next t →
    t.cseq = s.cseq
      ∨ (s.cseq, t.cseq) ∈ [(CSeq.idle, CSeq.pollCopy), (.pollCopy, .pollRel), (.pollRel, .idle)]
      ∨ (s.fetch.1 = some .reset ∧ t.cseq = .idle)

/-- R24: the four transitions of LOCK, each by its own instruction, and RESET; there is no other. -/
def Obligations.LockTransitions : Prop :=
  ∀ s t : State, s.LockOwned → step s = .next t → t.lock ≠ s.lock →
    (s.fetch.1 = some .cmtAcq ∧ s.lock = .free ∧ t.lock = .prod) ∨ (s.fetch.1 = some .cmtRel ∧ s.lock = .prod ∧ t.lock = .free)
      ∨ (s.fetch.1 = some .poll ∧ s.lock = .free ∧ t.lock = .cons) ∨ (s.fetch.1 = some .pollRel ∧ s.lock = .cons ∧ t.lock = .free)
      ∨ (s.fetch.1 = some .reset ∧ t.lock = .free)

/-- R49: SHARED and HAS_SAMPLE change only in a producer step taken with LOCK = PROD, in a consumer step taken with LOCK = CONS, or in a
RESET. -/
def Obligations.MutualExclusion : Prop :=
  ∀ s t : State, s.LockOwned → step s = .next t → t.shared ≠ s.shared ∨ t.hasSample ≠ s.hasSample →
    (s.fetch.1 = some .cmtWr ∧ s.lock = .prod) ∨ (s.fetch.1 = some .pollCopy ∧ s.lock = .cons) ∨ s.fetch.1 = some .reset

/-- R51, R189: a consumer turn changes no register that a stage reads or that only the producer writes, and a producer turn changes no
outward-facing register, no consumer sequencer and no returned word. -/
def Obligations.AgentsKeepToTheirRegisters : Prop :=
  ∀ (s t : State) (ts : List Agent), step s = .next t →
    (s.ports.turns = .consumer :: ts →
        t.cal = s.cal ∧ t.calaLoaded = s.calaLoaded ∧ t.calbLoaded = s.calbLoaded ∧ t.started = s.started ∧ t.raw = s.raw
          ∧ t.tFine = s.tFine ∧ t.stage = s.stage ∧ t.stagePok = s.stagePok ∧ t.shared = s.shared ∧ t.pseq = s.pseq
          ∧ t.ports.pp = s.ports.pp ∧ t.ports.hp = s.ports.hp)
      ∧ (s.ports.turns = .producer :: ts →
        t.out = s.out ∧ t.cseq = s.cseq ∧ t.ports.cpOut = s.ports.cpOut ∧ t.ports.hpOut = s.ports.hpOut
          ∧ t.ports.cp = s.ports.cp ∧ t.ports.hp = s.ports.hp)

/-- R112, R210: a whole cycle. After the decode step, with the lock free and producer turns only: if the pressure divisor is not zero,
six stages publish exactly the triple of this burst; if it is zero, three stages end the cycle and nothing is published. -/
def Obligations.CyclePublishesItsOwnTriple : Prop :=
  ∀ (s : State) (ts : List Agent), s.pseq = .compt → s.lock = .free → s.stagePok = false →
    (∀ x, tripleOfRaw s.raw s.cal = some x →
        s.ports.turns = List.replicate 6 Agent.producer ++ ts →
        ∃ t, core.run 6 s = .next t ∧ t.shared = x ∧ t.hasSample = true ∧ t.lock = .free ∧ t.pseq = .idle ∧ t.out = s.out)
      ∧ (tripleOfRaw s.raw s.cal = none →
        s.ports.turns = List.replicate 3 Agent.producer ++ ts →
        ∃ t, core.run 3 s = .next t ∧ t.shared = s.shared ∧ t.hasSample = s.hasSample ∧ t.lock = .free ∧ t.pseq = .idle
          ∧ t.stagePok = false ∧ t.out = s.out)

/-- R50: no torn triple. After any run from any state, under any order of turns, SHARED and OUT each hold a triple they held at the
start, the reset triple, or one STAGE triple as it stood at a CMT_WR of the run, whole. -/
def Obligations.NoTornTriple : Prop :=
  ∀ (k : Nat) (s t : State), core.run k s = .next t →
    (t.shared = s.shared ∨ t.shared = Triple.zero ∨ t.shared ∈ publishedIn k s)
      ∧ (t.out = s.out ∨ t.out = Triple.outReset ∨ t.out = s.shared ∨ t.out ∈ publishedIn k s)

/-- R12, R14, R50, R51, R111, R112: whatever the order of turns, a run that starts with genuine triples in SHARED and OUT ends with
genuine ones: each is the reset triple or the results of the eight bytes of one burst under the coefficients now in CAL. -/
def Obligations.OutputsComeFromOneBurst : Prop :=
  ∀ (k : Nat) (s t : State), s.CycleInv → s.RawInRange → s.Genuine s.shared → s.Genuine s.out → core.run k s = .next t →
    t.CycleInv ∧ t.RawInRange ∧ t.Genuine t.shared ∧ t.Genuine t.out

/-! ### Invariants -/

/-- R200: the reset state meets every invariant, whatever stands on the ports. That OUT is ordinary rests on the value the model takes for
`OUT_RESET` (R36, log entry 7). -/
def Obligations.ResetMeetsInvariants : Prop :=
  ∀ ps : Ports,
    State.Inv { State.reset with ports := ps } ∧ State.CycleInv { State.reset with ports := ps }
      ∧ State.FloatsOrdinary { State.reset with ports := ps }

/-- R11, R12, R14, R21, R24: every step keeps the lock's ownership, the order of initialisation, the meaning of STAGE_POK, and the
ranges of RAW and of H3 to H5. -/
def Obligations.StepKeepsControlInvariant : Prop :=
  ∀ s t : State, s.Inv → step s = .next t → t.Inv

/-- R15, R51, R112: at each point of a cycle the stage registers hold the results of this cycle's burst, under every order of turns. -/
def Obligations.StepKeepsCycleInvariant : Prop :=
  ∀ s t : State, s.CycleInv → step s = .next t → t.CycleInv

/-- R50, R112, R151: the step that runs CMT_WR leaves in SHARED the temperature, pressure and humidity of the one burst in RAW, and sets
HAS_SAMPLE. -/
def Obligations.PublishedTripleIsOneBurst : Prop :=
  ∀ s t : State, s.CycleInv → s.fetch.1 = some .cmtWr → step s = .next t →
    tripleOfRaw s.raw s.cal = some t.shared ∧ t.hasSample = true

/-- R19, R96: no step puts a NaN, an infinity, a subnormal or a negative zero into STAGE, SHARED or OUT. That RESET keeps it in OUT rests
on the value the model takes for `OUT_RESET` (R36, log entry 7). -/
def Obligations.StepKeepsFloatsOrdinary : Prop :=
  ∀ s t : State, s.FloatsOrdinary → step s = .next t → t.FloatsOrdinary

end
end

