-- ==== Sys2Proof/Laws/Numerics.lean ====
section
/-! SUPPORT. What each primitive of `Machine/Numerics.lean` is, said once: the same operation on bit vectors, or its exact value. -/

namespace Sys2Proof.Machine

theorem add32_eq (a b : Word) : add32 a b = a + b := by
  simp [add32, wrap32, BitVec.ofInt_add]

theorem sub32_eq (a b : Word) : sub32 a b = a - b := by
  apply BitVec.eq_of_toInt_eq
  simp [sub32, wrap32, BitVec.toInt_ofInt, BitVec.toInt_sub]

theorem mul32_eq (a b : Word) : mul32 a b = a * b := by
  simp [mul32, wrap32, BitVec.ofInt_mul]

theorem add64_eq (a b : DWord) : add64 a b = a + b := by
  simp [add64, wrap64, BitVec.ofInt_add]

theorem sub64_eq (a b : DWord) : sub64 a b = a - b := by
  apply BitVec.eq_of_toInt_eq
  simp [sub64, wrap64, BitVec.toInt_ofInt, BitVec.toInt_sub]

theorem mul64_eq (a b : DWord) : mul64 a b = a * b := by
  simp [mul64, wrap64, BitVec.ofInt_mul]

theorem shl32_eq (a : Word) (n : Nat) : shl32 a n = a <<< n := by
  apply BitVec.eq_of_toInt_eq
  rw [shl32, wrap32, BitVec.toInt_ofInt, BitVec.toInt_shiftLeft, Nat.shiftLeft_eq, BitVec.toInt_eq_toNat_bmod]
  push_cast
  simp

theorem shl64_eq (a : DWord) (n : Nat) : shl64 a n = a <<< n := by
  apply BitVec.eq_of_toInt_eq
  rw [shl64, wrap64, BitVec.toInt_ofInt, BitVec.toInt_shiftLeft, Nat.shiftLeft_eq, BitVec.toInt_eq_toNat_bmod]
  push_cast
  simp

/-- A floor division by a power of two stays in the range it starts from. -/
theorem fdiv_two_pow_bounds (a : Int) (n w : Nat) (lower : -2 ^ w ≤ a) (upper : a < 2 ^ w) :
    -2 ^ w ≤ a.fdiv (2 ^ n) ∧ a.fdiv (2 ^ n) < 2 ^ w := by
  have pos : (0 : Int) < 2 ^ n := by positivity
  have one_le : (1 : Int) ≤ 2 ^ n := by exact_mod_cast Nat.one_le_two_pow
  have range_pos : (0 : Int) < 2 ^ w := by positivity
  rw [Int.fdiv_eq_ediv_of_nonneg _ pos.le]
  exact ⟨Int.le_ediv_of_mul_le pos (by nlinarith), Int.ediv_lt_of_lt_mul pos (by nlinarith)⟩

/-- R84: nothing wraps in an arithmetic right shift. -/
theorem asr32_toInt (a : Word) (n : Nat) : (asr32 a n).toInt = a.toInt.fdiv (2 ^ n) := by
  have range := fdiv_two_pow_bounds a.toInt n 31 (by simpa using BitVec.le_toInt a) (by simpa using BitVec.toInt_lt (x := a))
  rw [asr32, wrap32, BitVec.toInt_ofInt, Int.bmod_eq_of_le] <;> omega

/-- R88: nothing wraps in an arithmetic right shift. -/
theorem asr64_toInt (a : DWord) (n : Nat) : (asr64 a n).toInt = a.toInt.fdiv (2 ^ n) := by
  have range := fdiv_two_pow_bounds a.toInt n 63 (by simpa using BitVec.le_toInt a) (by simpa using BitVec.toInt_lt (x := a))
  rw [asr64, wrap64, BitVec.toInt_ofInt, Int.bmod_eq_of_le] <;> omega

theorem asr32_eq (a : Word) (n : Nat) : asr32 a n = a.sshiftRight n := by
  apply BitVec.eq_of_toInt_eq
  rw [asr32_toInt, BitVec.toInt_sshiftRight, Int.shiftRight_eq_div_pow, Int.fdiv_eq_ediv_of_nonneg _ (by positivity)]
  norm_cast

theorem asr64_eq (a : DWord) (n : Nat) : asr64 a n = a.sshiftRight n := by
  apply BitVec.eq_of_toInt_eq
  rw [asr64_toInt, BitVec.toInt_sshiftRight, Int.shiftRight_eq_div_pow, Int.fdiv_eq_ediv_of_nonneg _ (by positivity)]
  norm_cast

/-- The quotient of the magnitudes with the product of the signs is the quotient truncated toward zero. -/
theorem sign_mul_natAbs_div (a b : Int) : a.sign * b.sign * ((a.natAbs / b.natAbs : Nat) : Int) = a.tdiv b := by
  obtain ⟨m, rfl | rfl⟩ := a.eq_nat_or_neg <;> obtain ⟨n, rfl | rfl⟩ := b.eq_nat_or_neg <;>
    rcases Nat.eq_zero_or_pos m with rfl | hm <;> rcases Nat.eq_zero_or_pos n with rfl | hn <;>
    simp [Int.sign_natCast_of_ne_zero, *, Nat.pos_iff_ne_zero.mp]

theorem div64_eq (a b : DWord) (nonzero : b ≠ 0#64) : div64 a b = a.sdiv b := by
  apply BitVec.eq_of_toInt_eq
  rw [div64, if_neg nonzero, BitVec.toInt_sdiv, wrap64, BitVec.toInt_ofInt, sign_mul_natAbs_div]

theorem widenU8_eq (v : Byte) : widenU8 v = v.zeroExtend 32 :=
  BitVec.eq_of_toNat_eq (by simp [widenU8, wrap32])

theorem widenS8_eq (v : Byte) : widenS8 v = v.signExtend 32 := by
  simp [widenS8, wrap32, BitVec.signExtend]

theorem widenU16_eq (v : Half) : widenU16 v = v.zeroExtend 32 :=
  BitVec.eq_of_toNat_eq (by simp [widenU16, wrap32])

theorem widenS16_eq (v : Half) : widenS16 v = v.signExtend 32 := by
  simp [widenS16, wrap32, BitVec.signExtend]

theorem widenU16To64_eq (v : Half) : widenU16To64 v = v.zeroExtend 64 :=
  BitVec.eq_of_toNat_eq (by simp [widenU16To64, wrap64])

theorem widenS16To64_eq (v : Half) : widenS16To64 v = v.signExtend 64 := by
  simp [widenS16To64, wrap64, BitVec.signExtend]

theorem widenS32To64_eq (v : Word) : widenS32To64 v = v.signExtend 64 := by
  simp [widenS32To64, wrap64, BitVec.signExtend]

/-- R98: a clamped value lies between the bounds. -/
theorem clamp_bounds (v lo hi : Word) (ordered : lo.toInt ≤ hi.toInt) :
    lo.toInt ≤ (clamp v lo hi).toInt ∧ (clamp v lo hi).toInt ≤ hi.toInt := by
  unfold clamp
  split_ifs <;> omega

/-- The rounded quotient is within half a divisor of the quotient. -/
theorem roundNearestEven_error (n d : Nat) (pos : 0 < d) :
    2 * n ≤ 2 * (roundNearestEven n d * d) + d ∧ 2 * (roundNearestEven n d * d) ≤ 2 * n + d := by
  have whole := Nat.div_add_mod' n d
  have rest := Nat.mod_lt n pos
  have parity := Nat.mod_two_eq_zero_or_one (n / d)
  unfold roundNearestEven
  split_ifs
  · omega
  · rw [add_mul]
    omega
  · rcases parity with h | h <;> rw [h, add_mul] <;> omega

/-- On a tie the rounded quotient is even. -/
theorem roundNearestEven_tie (n d : Nat) (tie : 2 * (n % d) = d) : roundNearestEven n d % 2 = 0 := by
  unfold roundNearestEven
  rw [if_neg (by omega), if_neg (by omega)]
  omega

/-- An exact quotient is not rounded. -/
theorem roundNearestEven_exact (q d : Nat) (pos : 0 < d) : roundNearestEven (q * d) d = q := by
  simp [roundNearestEven, pos]

end Sys2Proof.Machine
end

