-- ==== Sys2Proof/Laws/Compensation.lean ====
section
/-! SUPPORT. The two cases of comp_P and of COMPP, said once, so that no proof unfolds the test on the divisor. -/

namespace Sys2Proof.Machine

/-- R132: a zero divisor aborts. -/
theorem compP_of_zero {adcP tFine : Word} {c : CalP} (h : pressDivisor tFine c = 0#64) : compP adcP tFine c = none := by
  unfold compP
  rw [if_pos h]

/-- R132: any other divisor gives a result. -/
theorem compP_of_nonzero {adcP tFine : Word} {c : CalP} (h : pressDivisor tFine c ≠ 0#64) :
    compP adcP tFine c =
      some
        { fixed := pressFixed (div64 (pressNumerator adcP tFine c) (pressDivisor tFine c)) c
          press := pressFloat (pressFixed (div64 (pressNumerator adcP tFine c) (pressDivisor tFine c)) c) } := by
  unfold compP
  rw [if_neg h]

/-- R132: ABORT is exactly a zero divisor. -/
theorem compP_eq_none {adcP tFine : Word} {c : CalP} : compP adcP tFine c = none ↔ pressDivisor tFine c = 0#64 := by
  by_cases h : pressDivisor tFine c = 0#64
  · simp only [h, compP_of_zero]
  · simp only [h, compP_of_nonzero h, reduceCtorEq]

/-- R131: COMPP on ABORT. -/
theorem execCompp_abort {s : State} (h : compP s.raw.p s.tFine s.cal.p = none) :
    execCompp s = .next (s.setPseq .comph) := by
  rw [execCompp, h]

/-- R131: COMPP on a result. -/
theorem execCompp_success {s : State} {r : PressResult} (h : compP s.raw.p s.tFine s.cal.p = some r) :
    execCompp s = .next { s with stage := { s.stage with p := r.press }, stagePok := true, pseq := .comph } := by
  rw [execCompp, h]

/-- R142: the shifted, clamped humidity is 0 to 102400. -/
theorem humFixed_range (y : Word) : (humFixed y).toNat ≤ 102400 := by
  have bounds := clamp_bounds y 0#32 Config.humClampHi (by decide)
  rw [show (0#32).toInt = 0 from rfl, show Config.humClampHi.toInt = 419430400 from rfl] at bounds
  have shifted := asr32_toInt (clamp y 0#32 Config.humClampHi) 12
  rw [Int.fdiv_eq_ediv_of_nonneg _ (by positivity)] at shifted
  have signed := BitVec.toInt_eq_toNat_cond (asr32 (clamp y 0#32 Config.humClampHi) 12)
  have := (asr32 (clamp y 0#32 Config.humClampHi) 12).isLt
  unfold humFixed
  split at signed <;> omega

end Sys2Proof.Machine
end

