-- ==== Sys2Proof/Laws/Decode.lean ====
section
/-! SUPPORT. The decoder and the encoder: what each piece answers, and what a command found at the front of a port's bytes is. -/

namespace Sys2Proof

@[simp] theorem payloadOf_toList {n : Nat} (b : Payload n) : payloadOf n b.toList = some b := by
  simp [payloadOf, Vector.toList]

theorem payloadOf_eq_some {n : Nat} {l : List Byte} {b : Payload n} (h : payloadOf n l = some b) : l = b.toList := by
  unfold payloadOf at h
  split at h
  · cases h
    rfl
  · cases h

@[simp] theorem ofByte_byte (o : Opcode) : Opcode.ofByte o.byte = some o := by
  cases o <;> decide

theorem ofByte_eq_some {b : Byte} {o : Opcode} (h : Opcode.ofByte b = some o) : o.byte = b := by
  simpa using List.find?_some h

theorem ofByte_eq_none {b : Byte} (h : ∀ o : Opcode, o.byte ≠ b) : Opcode.ofByte b = none := by
  simpa [Opcode.ofByte, List.find?_eq_none] using fun o _ => h o

@[simp] theorem decodePseq_code (q : PSeq) : decodePseq q.code =
    match q with
    | .idle => none
    | .compt => some .compt
    | .compp => some .compp
    | .comph => some .comph
    | .cmtAcq => some .cmtAcq
    | .cmtWr => some .cmtWr
    | .cmtRel => some .cmtRel := by
  cases q <;> rfl

@[simp] theorem decodeCseq_code (q : CSeq) : decodeCseq q.code =
    match q with
    | .idle => none
    | .pollCopy => some .pollCopy
    | .pollRel => some .pollRel := by
  cases q <;> rfl

theorem ofCode_code (q : PSeq) : PSeq.ofCode q.code = some q := by
  cases q <;> rfl

theorem cseq_ofCode_code (q : CSeq) : CSeq.ofCode q.code = some q := by
  cases q <;> rfl

/-- The command of an opcode is encoded as that opcode's byte and the payload, on that opcode's port. -/
theorem commandOf_encoding {o : Opcode} {body : List Byte} {i : Instr} (h : commandOf o body = some i)
    (whole : body.length = o.payloadLength) : encode i = .frame o.port (o.byte :: body) := by
  cases o <;> simp only [commandOf, Option.map_eq_some_iff, Option.some.injEq] at h
  case ldcala | ldcalb | sample =>
    obtain ⟨b, hb, rfl⟩ := h
    rw [payloadOf_eq_some hb]
    rfl
  all_goals
    subst h
    rw [List.eq_nil_of_length_eq_zero whole]
    rfl

/-- Payload bytes of the right length always make a command. -/
theorem commandOf_isSome {o : Opcode} {body : List Byte} (whole : body.length = o.payloadLength) :
    (commandOf o body).isSome = true := by
  cases o <;> simp_all [commandOf, payloadOf, Opcode.payloadLength, Config.lenCalA, Config.lenCalB, Config.lenBurst]

/-- A command found at the front of a port's bytes: its frame is the front, and what follows is left. -/
theorem parseFrame_command {p : Port} {bytes rest : List Byte} {i : Instr} (h : parseFrame p bytes = .command i rest) :
    ∃ front, encode i = .frame p front ∧ bytes = front ++ rest := by
  cases bytes with
  | nil => cases h
  | cons op tail =>
    simp only [parseFrame] at h
    split at h
    · cases h
    · next o listed =>
      split_ifs at h with short port
      split at h
      · next j found =>
        cases h
        have whole : (tail.take o.payloadLength).length = o.payloadLength := by
          rw [List.length_take]
          omega
        refine ⟨_, port ▸ commandOf_encoding found whole, ?_⟩
        simp [ofByte_eq_some listed]
      · cases h

/-- A whole frame of a listed opcode at the front of its own port's bytes is found. -/
theorem parseFrame_of_opcode (o : Opcode) (body rest : List Byte) (i : Instr) (whole : body.length = o.payloadLength)
    (found : commandOf o body = some i) : parseFrame o.port (o.byte :: (body ++ rest)) = .command i rest := by
  simp [parseFrame, ← whole, found]

/-- Bytes that begin like a listed opcode's frame but are too few are no frame yet. -/
theorem parseFrame_short (p : Port) (o : Opcode) (tail : List Byte) (short : tail.length < o.payloadLength) :
    parseFrame p (o.byte :: tail) = .incomplete := by
  simp [parseFrame, short]

/-- The opcode of each command, and none for a stage. -/
def Instr.opcode : Instr → Option Opcode
  | .ldcala _ => some .ldcala
  | .ldcalb _ => some .ldcalb
  | .start => some .start
  | .sample _ => some .sample
  | .nosamp => some .nosamp
  | .poll => some .poll
  | .rdp => some .rdp
  | .rdt => some .rdt
  | .rdh => some .rdh
  | .rdstat => some .rdstat
  | .reset => some .reset
  | .compt | .compp | .comph | .cmtAcq | .cmtWr | .cmtRel | .pollCopy | .pollRel => none

/-- What an instruction encoded as a frame looks like: its opcode, its port, and its payload bytes. -/
theorem encode_frame {i : Instr} {p : Port} {bytes : List Byte} (h : encode i = .frame p bytes) :
    ∃ o body, i.opcode = some o ∧ p = o.port ∧ bytes = o.byte :: body ∧ body.length = o.payloadLength
      ∧ commandOf o body = some i := by
  cases i <;> simp only [encode, Encoding.frame.injEq, reduceCtorEq] at h <;> obtain ⟨rfl, rfl⟩ := h <;>
    exact ⟨_, _, rfl, rfl, rfl, by simp [Opcode.payloadLength, Config.lenCalA, Config.lenCalB, Config.lenBurst],
      by simp [commandOf]⟩

end Sys2Proof
end

