-- ==== Sys2Proof/Laws/Operands.lean ====
section
/-! SUPPORT. The payload fields as numbers, the way R100, R101 and R111 also write them. -/

namespace Sys2Proof.Machine

theorem lowNibble_toNat (b : Byte) : (lowNibble b).toNat = b.toNat % 16 := by
  simp [lowNibble, BitVec.extractLsb'_toNat]

theorem highNibble_toNat (b : Byte) : (highNibble b).toNat = b.toNat / 16 := by
  have := b.isLt
  simp [highNibble, BitVec.extractLsb'_toNat, Nat.shiftRight_eq_div_pow]
  omega

/-- Concatenation by value: the left part is the more significant. -/
theorem toNat_append_eq {m n : Nat} (x : BitVec m) (y : BitVec n) : (x ++ y).toNat = x.toNat * 2 ^ n + y.toNat := by
  rw [BitVec.toNat_append, ← Nat.shiftLeft_add_eq_or_of_lt y.isLt, Nat.shiftLeft_eq]

/-- R43: `hi * 256 + lo`. -/
theorem le16_toNat (lo hi : Byte) : (le16 lo hi).toNat = hi.toNat * 256 + lo.toNat := by
  simp only [le16, toNat_append_eq, Nat.reducePow]

/-- R101: the 12 bits of a packed coefficient, before their sign is extended. -/
theorem packed12_bits_toNat (upper : Byte) (nibble : BitVec 4) :
    (upper ++ nibble).toNat = upper.toNat * 16 + nibble.toNat := by
  simp only [toNat_append_eq, Nat.reducePow]

/-- R101: a packed coefficient is the signed value of its 12 bits. -/
theorem packed12_toInt (upper : Byte) (nibble : BitVec 4) :
    (packed12 upper nibble).toInt = (upper ++ nibble).toInt := by
  rw [packed12, BitVec.toInt_signExtend_of_le (by omega)]

/-- R101, R11: a packed coefficient lies in -2048 to 2047. -/
theorem packed12_range (upper : Byte) (nibble : BitVec 4) :
    -2048 ≤ (packed12 upper nibble).toInt ∧ (packed12 upper nibble).toInt ≤ 2047 := by
  rw [packed12_toInt]
  have lower := BitVec.le_toInt (upper ++ nibble)
  have upper := BitVec.toInt_lt (x := upper ++ nibble)
  omega

/-- R111: `b0 * 4096 + b1 * 16 + floor(b2 / 16)`. -/
theorem adc20_toNat (b0 b1 b2 : Byte) : (adc20 b0 b1 b2).toNat = b0.toNat * 4096 + b1.toNat * 16 + b2.toNat / 16 := by
  have := b0.isLt
  have := b1.isLt
  have := b2.isLt
  simp only [adc20, BitVec.zeroExtend, BitVec.toNat_setWidth, toNat_append_eq, highNibble_toNat]
  omega

/-- R111: `b6 * 256 + b7`. -/
theorem adc16_toNat (b6 b7 : Byte) : (adc16 b6 b7).toNat = b6.toNat * 256 + b7.toNat := by
  have := b6.isLt
  have := b7.isLt
  simp only [adc16, BitVec.zeroExtend, BitVec.toNat_setWidth, toNat_append_eq]
  omega

/-- R14, R111: the decoded counts are in range. -/
theorem rawOfBurst_range (b : Payload 8) :
    (rawOfBurst b).p.toNat < 2 ^ 20 ∧ (rawOfBurst b).t.toNat < 2 ^ 20 ∧ (rawOfBurst b).h.toNat < 2 ^ 16 := by
  have h0 := (b[0]).isLt
  have h1 := (b[1]).isLt
  have h2 := (b[2]).isLt
  have h3 := (b[3]).isLt
  have h4 := (b[4]).isLt
  have h5 := (b[5]).isLt
  have h6 := (b[6]).isLt
  have h7 := (b[7]).isLt
  simp only [rawOfBurst, adc20_toNat, adc16_toNat]
  omega

/-- R14, R111: counts in range are the counts of some burst. -/
theorem exists_burst {r : Raw} (p : r.p.toNat < 2 ^ 20) (t : r.t.toNat < 2 ^ 20) (h : r.h.toNat < 2 ^ 16) :
    ∃ b : Payload 8, rawOfBurst b = r := by
  let byte (n : Nat) : Byte := BitVec.ofNat 8 n
  refine ⟨#v[byte (r.p.toNat / 4096), byte (r.p.toNat / 16), byte (r.p.toNat * 16), byte (r.t.toNat / 4096), byte (r.t.toNat / 16),
    byte (r.t.toNat * 16), byte (r.h.toNat / 256), byte r.h.toNat], ?_⟩
  cases r
  simp only [rawOfBurst, Raw.mk.injEq]
  refine ⟨?_, ?_, ?_⟩ <;> apply BitVec.eq_of_toNat_eq <;>
    simp only [adc20_toNat, adc16_toNat, byte, Vector.getElem_mk, List.getElem_toArray, List.getElem_cons_zero, List.getElem_cons_succ,
      BitVec.toNat_ofNat] at * <;> omega

end Sys2Proof.Machine
end

