-- ==== Sys2Proof/Laws/State.lean ====
section
/-! SUPPORT. One lemma per field per named update of State, so that no proof unfolds a record update. -/

namespace Sys2Proof.Machine

/-! ### setPseq -/

@[simp] theorem State.setPseq_cal (q : PSeq) (s : State) : (s.setPseq q).cal = s.cal := rfl
@[simp] theorem State.setPseq_calaLoaded (q : PSeq) (s : State) : (s.setPseq q).calaLoaded = s.calaLoaded := rfl
@[simp] theorem State.setPseq_calbLoaded (q : PSeq) (s : State) : (s.setPseq q).calbLoaded = s.calbLoaded := rfl
@[simp] theorem State.setPseq_started (q : PSeq) (s : State) : (s.setPseq q).started = s.started := rfl
@[simp] theorem State.setPseq_raw (q : PSeq) (s : State) : (s.setPseq q).raw = s.raw := rfl
@[simp] theorem State.setPseq_tFine (q : PSeq) (s : State) : (s.setPseq q).tFine = s.tFine := rfl
@[simp] theorem State.setPseq_stage (q : PSeq) (s : State) : (s.setPseq q).stage = s.stage := rfl
@[simp] theorem State.setPseq_stagePok (q : PSeq) (s : State) : (s.setPseq q).stagePok = s.stagePok := rfl
@[simp] theorem State.setPseq_shared (q : PSeq) (s : State) : (s.setPseq q).shared = s.shared := rfl
@[simp] theorem State.setPseq_hasSample (q : PSeq) (s : State) : (s.setPseq q).hasSample = s.hasSample := rfl
@[simp] theorem State.setPseq_lock (q : PSeq) (s : State) : (s.setPseq q).lock = s.lock := rfl
@[simp] theorem State.setPseq_out (q : PSeq) (s : State) : (s.setPseq q).out = s.out := rfl
@[simp] theorem State.setPseq_pseq (q : PSeq) (s : State) : (s.setPseq q).pseq = q := rfl
@[simp] theorem State.setPseq_cseq (q : PSeq) (s : State) : (s.setPseq q).cseq = s.cseq := rfl
@[simp] theorem State.setPseq_ports (q : PSeq) (s : State) : (s.setPseq q).ports = s.ports := rfl

/-! ### setCseq -/

@[simp] theorem State.setCseq_cal (q : CSeq) (s : State) : (s.setCseq q).cal = s.cal := rfl
@[simp] theorem State.setCseq_calaLoaded (q : CSeq) (s : State) : (s.setCseq q).calaLoaded = s.calaLoaded := rfl
@[simp] theorem State.setCseq_calbLoaded (q : CSeq) (s : State) : (s.setCseq q).calbLoaded = s.calbLoaded := rfl
@[simp] theorem State.setCseq_started (q : CSeq) (s : State) : (s.setCseq q).started = s.started := rfl
@[simp] theorem State.setCseq_raw (q : CSeq) (s : State) : (s.setCseq q).raw = s.raw := rfl
@[simp] theorem State.setCseq_tFine (q : CSeq) (s : State) : (s.setCseq q).tFine = s.tFine := rfl
@[simp] theorem State.setCseq_stage (q : CSeq) (s : State) : (s.setCseq q).stage = s.stage := rfl
@[simp] theorem State.setCseq_stagePok (q : CSeq) (s : State) : (s.setCseq q).stagePok = s.stagePok := rfl
@[simp] theorem State.setCseq_shared (q : CSeq) (s : State) : (s.setCseq q).shared = s.shared := rfl
@[simp] theorem State.setCseq_hasSample (q : CSeq) (s : State) : (s.setCseq q).hasSample = s.hasSample := rfl
@[simp] theorem State.setCseq_lock (q : CSeq) (s : State) : (s.setCseq q).lock = s.lock := rfl
@[simp] theorem State.setCseq_out (q : CSeq) (s : State) : (s.setCseq q).out = s.out := rfl
@[simp] theorem State.setCseq_pseq (q : CSeq) (s : State) : (s.setCseq q).pseq = s.pseq := rfl
@[simp] theorem State.setCseq_cseq (q : CSeq) (s : State) : (s.setCseq q).cseq = q := rfl
@[simp] theorem State.setCseq_ports (q : CSeq) (s : State) : (s.setCseq q).ports = s.ports := rfl

/-! ### setLock -/

@[simp] theorem State.setLock_cal (l : Lock) (s : State) : (s.setLock l).cal = s.cal := rfl
@[simp] theorem State.setLock_calaLoaded (l : Lock) (s : State) : (s.setLock l).calaLoaded = s.calaLoaded := rfl
@[simp] theorem State.setLock_calbLoaded (l : Lock) (s : State) : (s.setLock l).calbLoaded = s.calbLoaded := rfl
@[simp] theorem State.setLock_started (l : Lock) (s : State) : (s.setLock l).started = s.started := rfl
@[simp] theorem State.setLock_raw (l : Lock) (s : State) : (s.setLock l).raw = s.raw := rfl
@[simp] theorem State.setLock_tFine (l : Lock) (s : State) : (s.setLock l).tFine = s.tFine := rfl
@[simp] theorem State.setLock_stage (l : Lock) (s : State) : (s.setLock l).stage = s.stage := rfl
@[simp] theorem State.setLock_stagePok (l : Lock) (s : State) : (s.setLock l).stagePok = s.stagePok := rfl
@[simp] theorem State.setLock_shared (l : Lock) (s : State) : (s.setLock l).shared = s.shared := rfl
@[simp] theorem State.setLock_hasSample (l : Lock) (s : State) : (s.setLock l).hasSample = s.hasSample := rfl
@[simp] theorem State.setLock_lock (l : Lock) (s : State) : (s.setLock l).lock = l := rfl
@[simp] theorem State.setLock_out (l : Lock) (s : State) : (s.setLock l).out = s.out := rfl
@[simp] theorem State.setLock_pseq (l : Lock) (s : State) : (s.setLock l).pseq = s.pseq := rfl
@[simp] theorem State.setLock_cseq (l : Lock) (s : State) : (s.setLock l).cseq = s.cseq := rfl
@[simp] theorem State.setLock_ports (l : Lock) (s : State) : (s.setLock l).ports = s.ports := rfl

/-! ### publish -/

@[simp] theorem State.publish_cal (s : State) : (s.publish).cal = s.cal := rfl
@[simp] theorem State.publish_calaLoaded (s : State) : (s.publish).calaLoaded = s.calaLoaded := rfl
@[simp] theorem State.publish_calbLoaded (s : State) : (s.publish).calbLoaded = s.calbLoaded := rfl
@[simp] theorem State.publish_started (s : State) : (s.publish).started = s.started := rfl
@[simp] theorem State.publish_raw (s : State) : (s.publish).raw = s.raw := rfl
@[simp] theorem State.publish_tFine (s : State) : (s.publish).tFine = s.tFine := rfl
@[simp] theorem State.publish_stage (s : State) : (s.publish).stage = s.stage := rfl
@[simp] theorem State.publish_stagePok (s : State) : (s.publish).stagePok = s.stagePok := rfl
@[simp] theorem State.publish_shared (s : State) : (s.publish).shared = s.stage := rfl
@[simp] theorem State.publish_hasSample (s : State) : (s.publish).hasSample = true := rfl
@[simp] theorem State.publish_lock (s : State) : (s.publish).lock = s.lock := rfl
@[simp] theorem State.publish_out (s : State) : (s.publish).out = s.out := rfl
@[simp] theorem State.publish_pseq (s : State) : (s.publish).pseq = s.pseq := rfl
@[simp] theorem State.publish_cseq (s : State) : (s.publish).cseq = s.cseq := rfl
@[simp] theorem State.publish_ports (s : State) : (s.publish).ports = s.ports := rfl

/-! ### returnCp -/

@[simp] theorem State.returnCp_cal (w : Word) (s : State) : (s.returnCp w).cal = s.cal := rfl
@[simp] theorem State.returnCp_calaLoaded (w : Word) (s : State) : (s.returnCp w).calaLoaded = s.calaLoaded := rfl
@[simp] theorem State.returnCp_calbLoaded (w : Word) (s : State) : (s.returnCp w).calbLoaded = s.calbLoaded := rfl
@[simp] theorem State.returnCp_started (w : Word) (s : State) : (s.returnCp w).started = s.started := rfl
@[simp] theorem State.returnCp_raw (w : Word) (s : State) : (s.returnCp w).raw = s.raw := rfl
@[simp] theorem State.returnCp_tFine (w : Word) (s : State) : (s.returnCp w).tFine = s.tFine := rfl
@[simp] theorem State.returnCp_stage (w : Word) (s : State) : (s.returnCp w).stage = s.stage := rfl
@[simp] theorem State.returnCp_stagePok (w : Word) (s : State) : (s.returnCp w).stagePok = s.stagePok := rfl
@[simp] theorem State.returnCp_shared (w : Word) (s : State) : (s.returnCp w).shared = s.shared := rfl
@[simp] theorem State.returnCp_hasSample (w : Word) (s : State) : (s.returnCp w).hasSample = s.hasSample := rfl
@[simp] theorem State.returnCp_lock (w : Word) (s : State) : (s.returnCp w).lock = s.lock := rfl
@[simp] theorem State.returnCp_out (w : Word) (s : State) : (s.returnCp w).out = s.out := rfl
@[simp] theorem State.returnCp_pseq (w : Word) (s : State) : (s.returnCp w).pseq = s.pseq := rfl
@[simp] theorem State.returnCp_cseq (w : Word) (s : State) : (s.returnCp w).cseq = s.cseq := rfl
@[simp] theorem State.returnCp_ports (w : Word) (s : State) : (s.returnCp w).ports = { s.ports with cpOut := s.ports.cpOut ++ [w] } := rfl

/-! ### returnHp -/

@[simp] theorem State.returnHp_cal (w : Word) (s : State) : (s.returnHp w).cal = s.cal := rfl
@[simp] theorem State.returnHp_calaLoaded (w : Word) (s : State) : (s.returnHp w).calaLoaded = s.calaLoaded := rfl
@[simp] theorem State.returnHp_calbLoaded (w : Word) (s : State) : (s.returnHp w).calbLoaded = s.calbLoaded := rfl
@[simp] theorem State.returnHp_started (w : Word) (s : State) : (s.returnHp w).started = s.started := rfl
@[simp] theorem State.returnHp_raw (w : Word) (s : State) : (s.returnHp w).raw = s.raw := rfl
@[simp] theorem State.returnHp_tFine (w : Word) (s : State) : (s.returnHp w).tFine = s.tFine := rfl
@[simp] theorem State.returnHp_stage (w : Word) (s : State) : (s.returnHp w).stage = s.stage := rfl
@[simp] theorem State.returnHp_stagePok (w : Word) (s : State) : (s.returnHp w).stagePok = s.stagePok := rfl
@[simp] theorem State.returnHp_shared (w : Word) (s : State) : (s.returnHp w).shared = s.shared := rfl
@[simp] theorem State.returnHp_hasSample (w : Word) (s : State) : (s.returnHp w).hasSample = s.hasSample := rfl
@[simp] theorem State.returnHp_lock (w : Word) (s : State) : (s.returnHp w).lock = s.lock := rfl
@[simp] theorem State.returnHp_out (w : Word) (s : State) : (s.returnHp w).out = s.out := rfl
@[simp] theorem State.returnHp_pseq (w : Word) (s : State) : (s.returnHp w).pseq = s.pseq := rfl
@[simp] theorem State.returnHp_cseq (w : Word) (s : State) : (s.returnHp w).cseq = s.cseq := rfl
@[simp] theorem State.returnHp_ports (w : Word) (s : State) : (s.returnHp w).ports = { s.ports with hpOut := s.ports.hpOut ++ [w] } := rfl

/-! ### setTurns -/

@[simp] theorem State.setTurns_cal (ts : List Agent) (s : State) : (s.setTurns ts).cal = s.cal := rfl
@[simp] theorem State.setTurns_calaLoaded (ts : List Agent) (s : State) : (s.setTurns ts).calaLoaded = s.calaLoaded := rfl
@[simp] theorem State.setTurns_calbLoaded (ts : List Agent) (s : State) : (s.setTurns ts).calbLoaded = s.calbLoaded := rfl
@[simp] theorem State.setTurns_started (ts : List Agent) (s : State) : (s.setTurns ts).started = s.started := rfl
@[simp] theorem State.setTurns_raw (ts : List Agent) (s : State) : (s.setTurns ts).raw = s.raw := rfl
@[simp] theorem State.setTurns_tFine (ts : List Agent) (s : State) : (s.setTurns ts).tFine = s.tFine := rfl
@[simp] theorem State.setTurns_stage (ts : List Agent) (s : State) : (s.setTurns ts).stage = s.stage := rfl
@[simp] theorem State.setTurns_stagePok (ts : List Agent) (s : State) : (s.setTurns ts).stagePok = s.stagePok := rfl
@[simp] theorem State.setTurns_shared (ts : List Agent) (s : State) : (s.setTurns ts).shared = s.shared := rfl
@[simp] theorem State.setTurns_hasSample (ts : List Agent) (s : State) : (s.setTurns ts).hasSample = s.hasSample := rfl
@[simp] theorem State.setTurns_lock (ts : List Agent) (s : State) : (s.setTurns ts).lock = s.lock := rfl
@[simp] theorem State.setTurns_out (ts : List Agent) (s : State) : (s.setTurns ts).out = s.out := rfl
@[simp] theorem State.setTurns_pseq (ts : List Agent) (s : State) : (s.setTurns ts).pseq = s.pseq := rfl
@[simp] theorem State.setTurns_cseq (ts : List Agent) (s : State) : (s.setTurns ts).cseq = s.cseq := rfl
@[simp] theorem State.setTurns_ports (ts : List Agent) (s : State) : (s.setTurns ts).ports = { s.ports with turns := ts } := rfl

/-! ### clearRegisters -/

@[simp] theorem State.clearRegisters_cal (s : State) : (s.clearRegisters).cal = Cal.reset := rfl
@[simp] theorem State.clearRegisters_calaLoaded (s : State) : (s.clearRegisters).calaLoaded = false := rfl
@[simp] theorem State.clearRegisters_calbLoaded (s : State) : (s.clearRegisters).calbLoaded = false := rfl
@[simp] theorem State.clearRegisters_started (s : State) : (s.clearRegisters).started = false := rfl
@[simp] theorem State.clearRegisters_raw (s : State) : (s.clearRegisters).raw = { p := 0#32, t := 0#32, h := 0#32 } := rfl
@[simp] theorem State.clearRegisters_tFine (s : State) : (s.clearRegisters).tFine = 0#32 := rfl
@[simp] theorem State.clearRegisters_stage (s : State) : (s.clearRegisters).stage = Triple.zero := rfl
@[simp] theorem State.clearRegisters_stagePok (s : State) : (s.clearRegisters).stagePok = false := rfl
@[simp] theorem State.clearRegisters_shared (s : State) : (s.clearRegisters).shared = Triple.zero := rfl
@[simp] theorem State.clearRegisters_hasSample (s : State) : (s.clearRegisters).hasSample = false := rfl
@[simp] theorem State.clearRegisters_lock (s : State) : (s.clearRegisters).lock = .free := rfl
@[simp] theorem State.clearRegisters_out (s : State) : (s.clearRegisters).out = Triple.outReset := rfl
@[simp] theorem State.clearRegisters_pseq (s : State) : (s.clearRegisters).pseq = .idle := rfl
@[simp] theorem State.clearRegisters_cseq (s : State) : (s.clearRegisters).cseq = .idle := rfl
@[simp] theorem State.clearRegisters_ports (s : State) : (s.clearRegisters).ports = s.ports := rfl

/-! ### setStream -/

@[simp] theorem State.setStream_cal (p : Port) (bytes : List Byte) (s : State) : (s.setStream p bytes).cal = s.cal := by cases p <;> rfl
@[simp] theorem State.setStream_calaLoaded (p : Port) (bytes : List Byte) (s : State) : (s.setStream p bytes).calaLoaded = s.calaLoaded := by cases p <;> rfl
@[simp] theorem State.setStream_calbLoaded (p : Port) (bytes : List Byte) (s : State) : (s.setStream p bytes).calbLoaded = s.calbLoaded := by cases p <;> rfl
@[simp] theorem State.setStream_started (p : Port) (bytes : List Byte) (s : State) : (s.setStream p bytes).started = s.started := by cases p <;> rfl
@[simp] theorem State.setStream_raw (p : Port) (bytes : List Byte) (s : State) : (s.setStream p bytes).raw = s.raw := by cases p <;> rfl
@[simp] theorem State.setStream_tFine (p : Port) (bytes : List Byte) (s : State) : (s.setStream p bytes).tFine = s.tFine := by cases p <;> rfl
@[simp] theorem State.setStream_stage (p : Port) (bytes : List Byte) (s : State) : (s.setStream p bytes).stage = s.stage := by cases p <;> rfl
@[simp] theorem State.setStream_stagePok (p : Port) (bytes : List Byte) (s : State) : (s.setStream p bytes).stagePok = s.stagePok := by cases p <;> rfl
@[simp] theorem State.setStream_shared (p : Port) (bytes : List Byte) (s : State) : (s.setStream p bytes).shared = s.shared := by cases p <;> rfl
@[simp] theorem State.setStream_hasSample (p : Port) (bytes : List Byte) (s : State) : (s.setStream p bytes).hasSample = s.hasSample := by cases p <;> rfl
@[simp] theorem State.setStream_lock (p : Port) (bytes : List Byte) (s : State) : (s.setStream p bytes).lock = s.lock := by cases p <;> rfl
@[simp] theorem State.setStream_out (p : Port) (bytes : List Byte) (s : State) : (s.setStream p bytes).out = s.out := by cases p <;> rfl
@[simp] theorem State.setStream_pseq (p : Port) (bytes : List Byte) (s : State) : (s.setStream p bytes).pseq = s.pseq := by cases p <;> rfl
@[simp] theorem State.setStream_cseq (p : Port) (bytes : List Byte) (s : State) : (s.setStream p bytes).cseq = s.cseq := by cases p <;> rfl
@[simp] theorem State.setStream_turns (p : Port) (bytes : List Byte) (s : State) : (s.setStream p bytes).ports.turns = s.ports.turns := by
  cases p <;> rfl
@[simp] theorem State.setStream_cpOut (p : Port) (bytes : List Byte) (s : State) : (s.setStream p bytes).ports.cpOut = s.ports.cpOut := by
  cases p <;> rfl
@[simp] theorem State.setStream_hpOut (p : Port) (bytes : List Byte) (s : State) : (s.setStream p bytes).ports.hpOut = s.ports.hpOut := by
  cases p <;> rfl
@[simp] theorem State.stream_setStream (p : Port) (bytes : List Byte) (s : State) : (s.setStream p bytes).stream p = bytes := by
  cases p <;> rfl
@[simp] theorem State.stream_setTurns (p : Port) (ts : List Agent) (s : State) : (s.setTurns ts).stream p = s.stream p := by
  cases p <;> rfl

/-! ### takeSample -/

@[simp] theorem State.takeSample_cal (s : State) : (s.takeSample).cal = s.cal := by
  unfold State.takeSample; split <;> rfl
@[simp] theorem State.takeSample_calaLoaded (s : State) : (s.takeSample).calaLoaded = s.calaLoaded := by
  unfold State.takeSample; split <;> rfl
@[simp] theorem State.takeSample_calbLoaded (s : State) : (s.takeSample).calbLoaded = s.calbLoaded := by
  unfold State.takeSample; split <;> rfl
@[simp] theorem State.takeSample_started (s : State) : (s.takeSample).started = s.started := by
  unfold State.takeSample; split <;> rfl
@[simp] theorem State.takeSample_raw (s : State) : (s.takeSample).raw = s.raw := by
  unfold State.takeSample; split <;> rfl
@[simp] theorem State.takeSample_tFine (s : State) : (s.takeSample).tFine = s.tFine := by
  unfold State.takeSample; split <;> rfl
@[simp] theorem State.takeSample_stage (s : State) : (s.takeSample).stage = s.stage := by
  unfold State.takeSample; split <;> rfl
@[simp] theorem State.takeSample_stagePok (s : State) : (s.takeSample).stagePok = s.stagePok := by
  unfold State.takeSample; split <;> rfl
@[simp] theorem State.takeSample_shared (s : State) : (s.takeSample).shared = s.shared := by
  unfold State.takeSample; split <;> rfl
@[simp] theorem State.takeSample_hasSample (s : State) : (s.takeSample).hasSample = false := by
  unfold State.takeSample; split <;> simp_all
@[simp] theorem State.takeSample_lock (s : State) : (s.takeSample).lock = s.lock := by
  unfold State.takeSample; split <;> rfl
@[simp] theorem State.takeSample_out (s : State) : (s.takeSample).out = if s.hasSample then s.shared else s.out := by
  unfold State.takeSample; split <;> rfl
@[simp] theorem State.takeSample_pseq (s : State) : (s.takeSample).pseq = s.pseq := by
  unfold State.takeSample; split <;> rfl
@[simp] theorem State.takeSample_cseq (s : State) : (s.takeSample).cseq = s.cseq := by
  unfold State.takeSample; split <;> rfl
@[simp] theorem State.takeSample_ports (s : State) : (s.takeSample).ports = s.ports := by
  unfold State.takeSample; split <;> rfl

end Sys2Proof.Machine
end

