-- ==== Sys2Proof/Laws/Step.lean ====
section
/-! SUPPORT. What the fetch and the step can do, said once. -/

namespace Sys2Proof.Machine

theorem agentOf_portOf (a : Agent) : agentOf (portOf a) = a := by
  cases a <;> rfl

theorem portOf_agentOf (p : Port) : portOf (agentOf p) = p := by
  cases p <;> rfl

/-- The acquire step, said once: it gives the lock to a new owner exactly when it was free. -/
theorem tryAcquire_eq_some {owner : Lock} {s t : State} :
    s.tryAcquire owner = some t ↔ s.lock = .free ∧ t = s.setLock owner := by
  unfold State.tryAcquire
  split_ifs with h <;> simp [h, eq_comm]

theorem tryAcquire_eq_none {owner : Lock} {s : State} : s.tryAcquire owner = none ↔ s.lock ≠ .free := by
  unfold State.tryAcquire
  split_ifs with h <;> simp [h]

/-- Accepting on a port, said once: nothing, or an illegal frame dropped, or a command whose frame left the port. -/
theorem accept_cases (p : Port) (s : State) :
    s.accept p = (none, s)
      ∨ (∃ rest, s.accept p = (none, s.setStream p rest))
      ∨ (∃ i front rest, encode i = .frame p front ∧ s.stream p = front ++ rest
          ∧ s.accept p = (some i, s.setStream p rest)) := by
  unfold State.accept
  split
  · exact .inl rfl
  · exact .inr (.inl ⟨_, rfl⟩)
  · exact .inr (.inl ⟨_, rfl⟩)
  · next found =>
    obtain ⟨front, hi, hs⟩ := parseFrame_command found
    exact .inr (.inr ⟨_, front, _, hi, hs, rfl⟩)

/-- The fetch, said once: no turn; a turn of an agent with a stage in progress, which is run; or a turn that accepts on a port. -/
theorem fetch_cases (s : State) :
    (s.ports.turns = [] ∧ s.fetch = (none, s))
      ∨ (∃ a ts i, s.ports.turns = a :: ts ∧ s.stageInProgress a = some i ∧ s.fetch = (some i, s.setTurns ts))
      ∨ (∃ a ts, s.ports.turns = a :: ts ∧ s.stageInProgress a = none ∧ s.fetch = (s.setTurns ts).accept (portOf a)) := by
  unfold State.fetch
  split
  · next none_left => exact .inl ⟨none_left, rfl⟩
  · next a ts turns =>
    have same : (s.setTurns ts).stageInProgress a = s.stageInProgress a := by cases a <;> rfl
    unfold State.fetchTurn
    rw [same]
    split
    · next i stage => exact .inr (.inl ⟨a, ts, i, turns, stage, rfl⟩)
    · next stage => exact .inr (.inr ⟨a, ts, turns, stage, rfl⟩)

/-- The fetch changes no register and no returned word: only turns and port bytes. -/
theorem fetch_keeps_registers (s : State) :
    ∃ ps : Ports, s.fetch.2 = { s with ports := ps } ∧ ps.cpOut = s.ports.cpOut ∧ ps.hpOut = s.ports.hpOut := by
  refine ⟨s.fetch.2.ports, ?_⟩
  rcases fetch_cases s with ⟨_, h⟩ | ⟨_, ts, _, _, _, h⟩ | ⟨a, ts, _, _, h⟩
  · rw [h]
    exact ⟨rfl, rfl, rfl⟩
  · rw [h]
    exact ⟨rfl, rfl, rfl⟩
  · rw [h]
    rcases accept_cases (portOf a) (s.setTurns ts) with e | ⟨_, e⟩ | ⟨_, _, _, _, _, e⟩ <;> rw [e] <;> cases a <;>
      exact ⟨rfl, rfl, rfl⟩

/-- The step, said once: what the fetch finds is run, or the fetched state is the next one. -/
theorem step_cases {s t : State} (h : step s = .next t) :
    (∃ i, s.fetch.1 = some i ∧ exec i s.fetch.2 = .next t) ∨ (s.fetch.1 = none ∧ t = s.fetch.2) := by
  unfold step at h
  split at h
  · next i u e => exact .inl ⟨i, by rw [e], by rw [e]; exact h⟩
  · next u e =>
    cases h
    exact .inr ⟨by rw [e], by rw [e]⟩

/-- A stage that is run stands in its sequencer. -/
theorem fetched_stage {s : State} {i : Instr} (h : s.fetch.1 = some i) :
    (∃ a ts, s.ports.turns = a :: ts ∧ s.stageInProgress a = some i ∧ s.fetch = (some i, s.setTurns ts))
      ∨ (∃ a ts front rest, s.ports.turns = a :: ts ∧ s.stageInProgress a = none ∧ encode i = .frame (portOf a) front
          ∧ s.stream (portOf a) = front ++ rest ∧ s.fetch = (some i, (s.setTurns ts).setStream (portOf a) rest)) := by
  rcases fetch_cases s with ⟨_, e⟩ | ⟨a, ts, j, turns, stage, e⟩ | ⟨a, ts, turns, stage, e⟩
  · rw [e] at h
    cases h
  · rw [e] at h
    cases h
    exact .inl ⟨a, ts, turns, stage, e⟩
  · rw [e] at h
    rcases accept_cases (portOf a) (s.setTurns ts) with f | ⟨_, f⟩ | ⟨j, front, rest, hi, hs, f⟩
    · rw [f] at h
      cases h
    · rw [f] at h
      cases h
    · rw [f] at h
      cases h
      exact .inr ⟨a, ts, front, rest, turns, stage, hi, by simpa using hs, e.trans f⟩

theorem decodePseq_encoding {c : BitVec 3} {i : Instr} (h : decodePseq c = some i) : encode i = .pseq c := by
  revert i
  revert c
  decide

theorem decodeCseq_encoding {c : BitVec 2} {i : Instr} (h : decodeCseq c = some i) : encode i = .cseq c := by
  revert i
  revert c
  decide

/-- What is run, said by its encoding: the stage in a sequencer, or a command of a port whose agent has nothing in progress. -/
theorem fetched_encoding {s : State} {i : Instr} (h : s.fetch.1 = some i) :
    encode i = .pseq s.pseq.code ∨ encode i = .cseq s.cseq.code
      ∨ (∃ front, encode i = .frame .pp front ∧ s.pseq = .idle)
      ∨ (∃ front, encode i = .frame .cp front ∧ s.cseq = .idle)
      ∨ (∃ front, encode i = .frame .hp front) := by
  rcases fetched_stage h with ⟨a, _, _, stage, _⟩ | ⟨a, _, front, _, _, idle, hi, _, _⟩
  · cases a
    · exact .inl (decodePseq_encoding stage)
    · exact .inr (.inl (decodeCseq_encoding stage))
    · cases stage
  · cases a
    · refine .inr (.inr (.inl ⟨front, hi, ?_⟩))
      simp only [State.stageInProgress, decodePseq_code] at idle
      cases q : s.pseq <;> simp_all
    · refine .inr (.inr (.inr (.inl ⟨front, hi, ?_⟩)))
      simp only [State.stageInProgress, decodeCseq_code] at idle
      cases q : s.cseq <;> simp_all
    · exact .inr (.inr (.inr (.inr ⟨front, hi⟩)))

/-- What the sequencers hold when an instruction is run: a producer command needs PSEQ idle, a consumer command CSEQ idle, and a stage
its own code. -/
def Ready (s : State) : Instr → Prop
  | .ldcala _ | .ldcalb _ | .start | .sample _ | .nosamp => s.pseq = .idle
  | .poll | .rdp | .rdt | .rdh => s.cseq = .idle
  | .rdstat | .reset => True
  | .compt => s.pseq = .compt
  | .compp => s.pseq = .compp
  | .comph => s.pseq = .comph
  | .cmtAcq => s.pseq = .cmtAcq
  | .cmtWr => s.pseq = .cmtWr
  | .cmtRel => s.pseq = .cmtRel
  | .pollCopy => s.cseq = .pollCopy
  | .pollRel => s.cseq = .pollRel

theorem fetched_ready {s : State} {i : Instr} (h : s.fetch.1 = some i) : Ready s i := by
  have e := fetched_encoding h
  cases i <;> simp only [encode, Encoding.frame.injEq, reduceCtorEq, false_and, exists_false, or_false, false_or, exists_and_right,
    exists_and_left, Ready] at e ⊢ <;> first
    | (cases q : s.pseq <;> simp_all [PSeq.code]; done)
    | (cases q : s.cseq <;> simp_all [CSeq.code])

/-- A run of `k + 1` steps is a step and a run of `k` steps. -/
theorem run_succ {k : Nat} {s t : State} (h : step s = .next t) : core.run (k + 1) s = core.run k t := by
  have first : core.step s = .next t := h
  simp only [Host.Core.run, first]

theorem run_zero (s : State) : core.run 0 s = .next s := rfl

end Sys2Proof.Machine
end

