-- ==== Sys2Proof/Laws/Exec.lean ====
section
/-! SUPPORT. What each meaning with more than one outcome can do, said once, and what one step can do to the registers. -/

namespace Sys2Proof.Machine

variable {s t : State}

theorem execLdcala_cases {b : Payload 26} (h : execLdcala b s = .next t) :
    (s.started = true ∧ t = s)
      ∨ (s.started = false ∧ t = { s with cal := loadBlockA b s.cal, calaLoaded := true }) := by
  unfold execLdcala ignored at h
  split at h <;> cases h
  · exact .inl ⟨‹_›, rfl⟩
  · exact .inr ⟨Bool.eq_false_iff.mpr ‹_›, rfl⟩

theorem execLdcalb_cases {b : Payload 8} (h : execLdcalb b s = .next t) :
    (s.started = true ∧ t = s)
      ∨ (s.started = false ∧ t = { s with cal := loadBlockB b s.cal, calbLoaded := true }) := by
  unfold execLdcalb ignored at h
  split at h <;> cases h
  · exact .inl ⟨‹_›, rfl⟩
  · exact .inr ⟨Bool.eq_false_iff.mpr ‹_›, rfl⟩

theorem execStart_cases (h : execStart s = .next t) :
    (s.mayStart = false ∧ t = s) ∨ (s.mayStart = true ∧ t = { s with started := true }) := by
  unfold execStart ignored at h
  split at h <;> cases h
  · exact .inr ⟨‹_›, rfl⟩
  · exact .inl ⟨Bool.eq_false_iff.mpr ‹_›, rfl⟩

theorem execSample_cases {b : Payload 8} (h : execSample b s = .next t) :
    (s.started = false ∧ t = s)
      ∨ (s.started = true ∧ t = { s with raw := rawOfBurst b, stagePok := false, pseq := .compt }) := by
  unfold execSample ignored at h
  split at h <;> cases h
  · exact .inr ⟨‹_›, rfl⟩
  · exact .inl ⟨Bool.eq_false_iff.mpr ‹_›, rfl⟩

theorem execCompp_cases (h : execCompp s = .next t) :
    (compP s.raw.p s.tFine s.cal.p = none ∧ t = { s with pseq := .comph })
      ∨ (∃ r, compP s.raw.p s.tFine s.cal.p = some r
          ∧ t = { s with stage := { s.stage with p := r.press }, stagePok := true, pseq := .comph }) := by
  cases r : compP s.raw.p s.tFine s.cal.p with
  | none =>
    rw [execCompp_abort r] at h
    cases h
    exact .inl ⟨rfl, rfl⟩
  | some r' =>
    rw [execCompp_success r] at h
    cases h
    exact .inr ⟨r', rfl, rfl⟩

theorem execCmtAcq_cases (h : execCmtAcq s = .next t) :
    (s.lock ≠ .free ∧ t = s) ∨ (s.lock = .free ∧ t = { s with lock := .prod, pseq := .cmtWr }) := by
  unfold execCmtAcq ignored at h
  split at h
  · next got =>
    obtain ⟨free, rfl⟩ := tryAcquire_eq_some.mp got
    cases h
    exact .inr ⟨free, rfl⟩
  · next held =>
    cases h
    exact .inl ⟨tryAcquire_eq_none.mp held, rfl⟩

theorem execPoll_cases (h : execPoll s = .next t) :
    (s.lock ≠ .free ∧ t = s) ∨ (s.lock = .free ∧ t = { s with lock := .cons, cseq := .pollCopy }) := by
  unfold execPoll ignored at h
  split at h
  · next got =>
    obtain ⟨free, rfl⟩ := tryAcquire_eq_some.mp got
    cases h
    exact .inr ⟨free, rfl⟩
  · next held =>
    cases h
    exact .inl ⟨tryAcquire_eq_none.mp held, rfl⟩

theorem execPollCopy_cases (h : execPollCopy s = .next t) :
    (s.hasSample = false ∧ t = { s with cseq := .pollRel })
      ∨ (s.hasSample = true ∧ t = { s with out := s.shared, hasSample := false, cseq := .pollRel }) := by
  unfold execPollCopy State.takeSample at h
  split at h <;> cases h
  · exact .inr ⟨‹_›, rfl⟩
  · exact .inl ⟨Bool.eq_false_iff.mpr ‹_›, rfl⟩

/-- One step, seen from the registers: either only the ports change, or an instruction whose sequencer is ready for it is run on the same
registers. -/
theorem step_registers (h : step s = .next t) :
    (∃ ps, s.fetch.1 = none ∧ t = { s with ports := ps })
      ∨ (∃ i ps, s.fetch.1 = some i ∧ Ready s i ∧ exec i { s with ports := ps } = .next t) := by
  obtain ⟨ps, fetched, -, -⟩ := fetch_keeps_registers s
  rcases step_cases h with ⟨i, hi, he⟩ | ⟨hn, rfl⟩
  · exact .inr ⟨i, ps, hi, fetched_ready hi, fetched ▸ he⟩
  · exact .inl ⟨ps, hn, fetched⟩

end Sys2Proof.Machine
end

