-- ==== Sys2Proof/Laws/Floats.lean ====
section
/-! SUPPORT. What the binary32 operations give: the fields and the value of a packed pattern, and the nearest value by one rounding. -/

namespace Sys2Proof.Machine

theorem f32Exp_eq (w : Word) : f32Exp w = w.toNat / 2 ^ 23 % 2 ^ 8 := by
  simp [f32Exp, BitVec.extractLsb, BitVec.extractLsb'_toNat, Nat.shiftRight_eq_div_pow]

theorem f32Frac_eq (w : Word) : f32Frac w = w.toNat % 2 ^ 23 := by
  simp [f32Frac, BitVec.extractLsb, BitVec.extractLsb'_toNat]

theorem f32Neg_eq (w : Word) : f32Neg w = decide (2 ^ 31 ≤ w.toNat) := by
  simp [f32Neg, BitVec.msb_eq_decide]

/-- The number that a packed pattern is, in the range in which nothing overflows its fields. -/
theorem f32Pack_toNat (neg : Bool) (ex sig : Nat) (exUpper : ex ≤ 254) (sigUpper : sig ≤ 2 ^ 24) :
    (f32Pack neg ex sig).toNat = (if neg then 2 ^ 31 else 0) + ex * 2 ^ 23 + (sig - 2 ^ 23) := by
  rw [f32Pack, BitVec.toNat_ofNat, Nat.mod_eq_of_lt]
  cases neg <;> simp <;> omega

/-- R91: sign, exponent and fraction of a packed pattern; a significand of `2^24` counts in the exponent. -/
theorem f32Pack_fields (neg : Bool) (ex sig : Nat) (exUpper : ex ≤ 254) (sigLower : 2 ^ 23 ≤ sig) (sigUpper : sig ≤ 2 ^ 24) :
    f32Neg (f32Pack neg ex sig) = neg
      ∧ (sig < 2 ^ 24 → f32Exp (f32Pack neg ex sig) = ex ∧ f32Frac (f32Pack neg ex sig) = sig - 2 ^ 23)
      ∧ (sig = 2 ^ 24 → f32Exp (f32Pack neg ex sig) = ex + 1 ∧ f32Frac (f32Pack neg ex sig) = 0) := by
  rw [f32Neg_eq, f32Exp_eq, f32Frac_eq, f32Pack_toNat neg ex sig exUpper sigUpper]
  cases neg <;> simp <;> omega

/-- R91: a packed pattern with an exponent in range is normal. -/
theorem f32Pack_isNormal (neg : Bool) (ex sig : Nat) (exLower : 1 ≤ ex) (exUpper : ex ≤ 253) (sigLower : 2 ^ 23 ≤ sig)
    (sigUpper : sig ≤ 2 ^ 24) : f32IsNormal (f32Pack neg ex sig) = true := by
  obtain ⟨-, inside, carried⟩ := f32Pack_fields neg ex sig (by omega) sigLower sigUpper
  rcases sigUpper.lt_or_eq with h | h
  · simp [f32IsNormal, inside h]
    omega
  · simp [f32IsNormal, carried h]
    omega

/-- `+1` or `-1`. -/
def f32Sign (neg : Bool) : ℚ := if neg then -1 else 1

theorem f32Sign_mul_self (neg : Bool) : f32Sign neg * f32Sign neg = 1 := by
  cases neg <;> simp [f32Sign]

theorem f32Sign_mul (a b : Bool) : f32Sign a * f32Sign b = f32Sign (a ^^ b) := by
  cases a <;> cases b <;> simp [f32Sign]

theorem f32Sign_abs (neg : Bool) : |f32Sign neg| = 1 := by
  cases neg <;> simp [f32Sign]

/-- R91: the value of a normal pattern, by its 24-bit significand. -/
theorem f32Value_of_isNormal {w : Word} (normal : f32IsNormal w = true) :
    f32Value w = f32Sign (f32Neg w) * (f32Sig w : ℚ) * 2 ^ ((f32Exp w : ℤ) - 150) := by
  have split : (2 : ℚ) ^ ((f32Exp w : ℤ) - 127) = 2 ^ ((f32Exp w : ℤ) - 150) * 2 ^ 23 := by
    rw [← zpow_natCast, ← zpow_add₀ (by norm_num)]
    congr 1
    push_cast
    ring
  rw [f32Value, if_pos normal, split, f32Sign, f32Sig]
  push_cast
  ring

theorem f32Value_of_not_isNormal {w : Word} (h : f32IsNormal w = false) : f32Value w = 0 := by
  rw [f32Value, h, if_neg (by simp)]

/-- R91: the value of a packed pattern, also when rounding carried its significand to `2^24`. -/
theorem f32Value_f32Pack (neg : Bool) (ex sig : Nat) (exLower : 1 ≤ ex) (exUpper : ex ≤ 253) (sigLower : 2 ^ 23 ≤ sig)
    (sigUpper : sig ≤ 2 ^ 24) :
    f32Value (f32Pack neg ex sig) = f32Sign neg * (sig : ℚ) * 2 ^ ((ex : ℤ) - 150) := by
  rw [f32Value_of_isNormal (f32Pack_isNormal neg ex sig exLower exUpper sigLower sigUpper)]
  obtain ⟨sign, inside, carried⟩ := f32Pack_fields neg ex sig (by omega) sigLower sigUpper
  rcases sigUpper.lt_or_eq with h | h
  · rw [sign, (inside h).1, f32Sig, (inside h).2, Nat.add_sub_cancel' sigLower]
  · rw [sign, (carried h).1, f32Sig, (carried h).2, h]
    push_cast
    rw [show ((ex : ℤ) + 1 - 150) = (ex - 150) + 1 by ring, zpow_add_one₀ (by norm_num)]
    ring

/-- Every ordinary value is a whole multiple of the spacing of the binade `ex`, or lies below that binade. -/
theorem f32Value_grid (v : Word) (ex : ℤ) :
    (∃ z : ℤ, f32Value v = z * 2 ^ (ex - 150)) ∨ |f32Value v| < 2 ^ 23 * 2 ^ (ex - 150) := by
  cases normal : f32IsNormal v
  · exact .inl ⟨0, by simp [f32Value_of_not_isNormal normal]⟩
  · rw [f32Value_of_isNormal normal]
    have small : (f32Sig v : ℚ) < 2 ^ 24 := by
      rw [f32Sig, f32Frac_eq]
      exact_mod_cast (by omega : 2 ^ 23 + v.toNat % 2 ^ 23 < 2 ^ 24)
    rcases le_or_gt ex (f32Exp v : ℤ) with h | h
    · refine .inl ⟨(if f32Neg v then -1 else 1) * f32Sig v * 2 ^ ((f32Exp v : ℤ) - ex).toNat, ?_⟩
      have split : (2 : ℚ) ^ ((f32Exp v : ℤ) - 150) = 2 ^ ((f32Exp v : ℤ) - ex).toNat * 2 ^ (ex - 150) := by
        rw [← zpow_natCast, ← zpow_add₀ (by norm_num), Int.toNat_of_nonneg (by omega)]
        congr 1
        ring
      rw [split, f32Sign]
      push_cast
      ring
    · refine .inr ?_
      have step : (2 : ℚ) ^ ((f32Exp v : ℤ) - 150) * 2 ≤ 2 ^ (ex - 150) := by
        rw [← zpow_add_one₀ (by norm_num)]
        exact zpow_le_zpow_right₀ (by norm_num) (by omega)
      have pos : (0 : ℚ) < 2 ^ ((f32Exp v : ℤ) - 150) := by positivity
      have sigNonneg : (0 : ℚ) ≤ f32Sig v := by positivity
      rw [abs_mul, abs_mul, f32Sign_abs, one_mul, abs_of_nonneg sigNonneg, abs_of_pos pos]
      nlinarith

/-- The rounded quotient of a significand's range stays in that range, its upper end included. -/
theorem roundNearestEven_range {n d : Nat} (pos : 0 < d) (lower : 2 ^ 23 * d ≤ n) (upper : n < 2 ^ 24 * d) :
    2 ^ 23 ≤ roundNearestEven n d ∧ roundNearestEven n d ≤ 2 ^ 24 := by
  have low : 2 ^ 23 ≤ n / d := (Nat.le_div_iff_mul_le pos).mpr lower
  have high : n / d < 2 ^ 24 := (Nat.div_lt_iff_lt_mul pos).mpr upper
  unfold roundNearestEven
  split_ifs <;> omega

/-- No whole number is nearer to `n / d` than the rounded quotient, and none is as near unless the rounded quotient is even. -/
theorem roundNearestEven_nearest {n d : Nat} (pos : 0 < d) (z : ℤ) :
    |(roundNearestEven n d : ℚ) - n / d| ≤ |(z : ℚ) - n / d|
      ∧ (|(roundNearestEven n d : ℚ) - n / d| = |(z : ℚ) - n / d| → z ≠ roundNearestEven n d → roundNearestEven n d % 2 = 0) := by
  have posQ : (0 : ℚ) < d := by exact_mod_cast pos
  have scaled (x : ℚ) : |x - n / d| = |x * d - n| / d := by
    rw [← abs_of_pos posQ, ← abs_div, abs_of_pos posQ]
    congr 1
    field_simp
  set r := roundNearestEven n d with hr
  have error := roundNearestEven_error n d pos
  rw [← hr] at error
  have near : 2 * |(r : ℤ) * d - n| ≤ d := by
    obtain ⟨low, high⟩ := error
    zify at low high
    rcases abs_cases ((r : ℤ) * d - n) with ⟨e, _⟩ | ⟨e, _⟩ <;> rw [e] <;> linarith
  have tie : 2 * |(r : ℤ) * d - n| = d → r % 2 = 0 := by
    intro half
    apply roundNearestEven_tie
    have whole := Nat.div_add_mod n d
    have rest := Nat.mod_lt n pos
    by_contra off
    rw [hr] at half
    unfold roundNearestEven at half
    zify at whole
    split_ifs at half with below above
    · rw [show ((n / d : Nat) : ℤ) * d - n = -((n % d : Nat) : ℤ) by push_cast; linarith, abs_neg, Nat.abs_cast] at half
      omega
    · rw [show (((n / d + 1 : Nat)) : ℤ) * d - n = d - ((n % d : Nat) : ℤ) by push_cast; linarith,
        abs_of_nonneg (by omega)] at half
      omega
    · omega
  have far (ne : z ≠ r) : (d : ℤ) ≤ 2 * |z * d - n| := by
    have one : 1 ≤ |z - r| := Int.one_le_abs (sub_ne_zero.mpr ne)
    have apart : (d : ℤ) ≤ |z * d - r * d| := by
      rw [← sub_mul, abs_mul, Nat.abs_cast]
      nlinarith
    have triangle := abs_sub_le (z * d) (n : ℤ) (r * d)
    rw [abs_sub_comm (n : ℤ)] at triangle
    linarith
  rw [scaled, scaled]
  have castR : |(r : ℚ) * d - n| = (|(r : ℤ) * d - n| : ℤ) := by push_cast; rfl
  have castZ : |(z : ℚ) * d - n| = (|z * d - n| : ℤ) := by push_cast; rfl
  rw [castR, castZ]
  by_cases same : z = r
  · subst same
    exact ⟨le_refl _, fun _ ne => absurd rfl ne⟩
  · have := far same
    have nearer : |(r : ℤ) * d - n| ≤ |z * d - n| := by
      linarith
    refine ⟨div_le_div_of_nonneg_right (by exact_mod_cast nearer) posQ.le, fun equal _ => tie ?_⟩
    rw [div_left_inj' posQ.ne'] at equal
    have equal : |(r : ℤ) * d - n| = |z * d - n| := by exact_mod_cast equal
    linarith

/-- R92, R93, R94: the packed rounded quotient is the binary32 value nearest to the exact quotient, ties to even. -/
theorem f32Nearest_of_rounded (neg : Bool) (ex n d : Nat) (pos : 0 < d) (exLower : 1 ≤ ex) (exUpper : ex ≤ 253)
    (lower : 2 ^ 23 * d ≤ n) (upper : n < 2 ^ 24 * d) :
    f32Nearest (f32Pack neg ex (roundNearestEven n d)) (f32Sign neg * ((n : ℚ) / d) * 2 ^ ((ex : ℤ) - 150)) := by
  intro v _
  obtain ⟨sigLower, sigUpper⟩ := roundNearestEven_range pos lower upper
  have value := f32Value_f32Pack neg ex _ exLower exUpper sigLower sigUpper
  set r := roundNearestEven n d with hr
  set g : ℚ := 2 ^ ((ex : ℤ) - 150) with hg
  have gpos : 0 < g := by positivity
  have signSq := f32Sign_mul_self neg
  have dist (u : ℚ) : |f32Sign neg * u * g - f32Sign neg * ((n : ℚ) / d) * g| = |u - n / d| * g := by
    rw [← sub_mul, ← mul_sub, abs_mul, abs_mul, f32Sign_abs, one_mul, abs_of_pos gpos]
  have unsigned : f32Value v = f32Sign neg * (f32Sign neg * f32Value v / g) * g := by
    rw [mul_div_assoc', ← mul_assoc, signSq]
    field_simp
  have frac : r % 2 = 0 → f32Frac (f32Pack neg ex r) % 2 = 0 := by
    intro even
    obtain ⟨-, inside, carried⟩ := f32Pack_fields neg ex r (by omega) sigLower sigUpper
    rcases sigUpper.lt_or_eq with h | h
    · rw [(inside h).2]
      omega
    · rw [(carried h).2]
  rcases f32Value_grid v ex with ⟨z, hz⟩ | below
  · obtain ⟨z', hz'⟩ : ∃ z' : ℤ, f32Value v = f32Sign neg * (z' : ℚ) * g := by
      refine ⟨(if neg then -1 else 1) * z, ?_⟩
      rw [hz, ← hg]
      cases neg <;> simp [f32Sign]
    obtain ⟨near, even⟩ := roundNearestEven_nearest (n := n) pos z'
    rw [value, hz', dist, dist]
    refine ⟨by gcongr, fun equal ne => frac (even (mul_right_cancel₀ gpos.ne' equal) ?_)⟩
    rintro rfl
    exact ne (by push_cast; rfl)
  · have near : |(r : ℚ) - n / d| ≤ |(2 : ℚ) ^ 23 - n / d| := by
      rw [show (2 : ℚ) ^ 23 = ((8388608 : ℤ) : ℚ) by norm_num]
      exact (roundNearestEven_nearest pos 8388608).1
    have yLower : (2 : ℚ) ^ 23 ≤ n / d := by
      rw [le_div_iff₀ (by exact_mod_cast pos)]
      exact_mod_cast lower
    have uUpper : f32Sign neg * f32Value v / g < 2 ^ 23 := by
      rw [div_lt_iff₀ gpos]
      refine lt_of_le_of_lt (le_abs_self _) ?_
      rwa [abs_mul, f32Sign_abs, one_mul]
    rw [value, unsigned, dist, dist]
    rw [abs_of_nonpos (by linarith : (2 : ℚ) ^ 23 - n / d ≤ 0)] at near
    rw [abs_of_nonpos (by linarith : f32Sign neg * f32Value v / g - n / d ≤ 0)]
    have strict : |(r : ℚ) - n / d| < -(f32Sign neg * f32Value v / g - n / d) := by linarith
    exact ⟨(mul_le_mul_of_nonneg_right strict.le gpos.le), fun equal _ =>
      absurd (mul_right_cancel₀ gpos.ne' equal) strict.ne⟩

/-- The rounded quotient does not change when both numbers are scaled. -/
theorem roundNearestEven_scale (n d k : Nat) (pos : 0 < k) : roundNearestEven (n * k) (d * k) = roundNearestEven n d := by
  have double : 2 * (n % d * k) = 2 * (n % d) * k := by ring
  simp only [roundNearestEven, Nat.mul_mod_mul_right, Nat.mul_div_mul_right _ _ pos, double, Nat.mul_lt_mul_right pos]

/-- R92, R93: both cases of the significand of an integer are one rounding of `m * 2^23 / 2^l`. -/
theorem f32SigOfNat_eq (m l : Nat) : f32SigOfNat m l = roundNearestEven (m * 2 ^ 23) (2 ^ l) := by
  unfold f32SigOfNat
  split_ifs with h
  · rw [show 2 ^ 23 = 2 ^ (23 - l) * 2 ^ l by rw [← pow_add]; congr 1; omega, ← mul_assoc,
      roundNearestEven_exact _ _ (by positivity)]
  · rw [show 2 ^ l = 2 ^ (l - 23) * 2 ^ 23 by rw [← pow_add]; congr 1; omega, roundNearestEven_scale _ _ _ (by positivity)]

/-- The range of the significand of a non-zero integer before it is rounded. -/
theorem log2_significand_range {m : Nat} (nonzero : m ≠ 0) :
    2 ^ 23 * 2 ^ m.log2 ≤ m * 2 ^ 23 ∧ m * 2 ^ 23 < 2 ^ 24 * 2 ^ m.log2 := by
  have low := Nat.log2_self_le nonzero
  have high := Nat.lt_log2_self (n := m)
  rw [pow_succ] at high
  omega

/-- R92, R93: a non-zero integer converts to a packed pattern with an exponent in 127 to 190 and a significand in range. -/
theorem f32OfInt_of_nonzero {i : Int} (nonzero : i ≠ 0) (bound : i.natAbs < 2 ^ 64) :
    ∃ l n d : Nat, l ≤ 63 ∧ 0 < d ∧ 2 ^ 23 * d ≤ n ∧ n < 2 ^ 24 * d
      ∧ (i : ℚ) = f32Sign (decide (i < 0)) * ((n : ℚ) / d) * 2 ^ (((l + 127 : Nat) : ℤ) - 150)
      ∧ f32OfInt i = f32Pack (decide (i < 0)) (l + 127) (roundNearestEven n d) := by
  have nonzero' : i.natAbs ≠ 0 := by omega
  obtain ⟨lower, upper⟩ := log2_significand_range nonzero'
  refine ⟨i.natAbs.log2, i.natAbs * 2 ^ 23, 2 ^ i.natAbs.log2, ?_, by positivity, lower, upper, ?_, ?_⟩
  · have := (Nat.log2_lt nonzero').mpr bound
    omega
  · have magnitude : (i : ℚ) = f32Sign (decide (i < 0)) * i.natAbs := by
      rcases lt_or_ge i 0 with h | h
      · have negative : (i : ℚ) ≤ 0 := by exact_mod_cast h.le
        rw [f32Sign, decide_eq_true h, if_pos rfl, Nat.cast_natAbs, Int.cast_abs, abs_of_nonpos negative]
        ring
      · have positive : (0 : ℚ) ≤ i := by exact_mod_cast h
        rw [f32Sign, decide_eq_false (by omega), if_neg (by simp), Nat.cast_natAbs, Int.cast_abs, abs_of_nonneg positive]
        ring
    have exponent : (2 : ℚ) ^ (((i.natAbs.log2 + 127 : Nat) : ℤ) - 150) = 2 ^ i.natAbs.log2 / 2 ^ 23 := by
      rw [show (((i.natAbs.log2 + 127 : Nat) : ℤ) - 150) = (i.natAbs.log2 : ℤ) - 23 by push_cast; ring, zpow_sub₀ (by norm_num)]
      norm_cast
    rw [exponent]
    push_cast
    nth_rw 1 [magnitude]
    field_simp
    norm_num
  · rw [f32OfInt, if_neg nonzero, f32SigOfNat_eq]

theorem f32Sig_range (w : Word) : 2 ^ 23 ≤ f32Sig w ∧ f32Sig w < 2 ^ 24 := by
  rw [f32Sig, f32Frac_eq]
  omega

/-- R94: the quotient of two normal patterns, when its exponent is in range, is one rounding of the exact quotient. -/
theorem f32Div_of_isNormal {a b : Word} (normalA : f32IsNormal a = true) (normalB : f32IsNormal b = true)
    (lowerExp : 1 ≤ f32DivExp a b) (upperExp : f32DivExp a b ≤ 253) :
    ∃ ex n d : Nat, (ex : ℤ) = f32DivExp a b ∧ 0 < d ∧ 2 ^ 23 * d ≤ n ∧ n < 2 ^ 24 * d
      ∧ f32Value a / f32Value b = f32Sign (f32Neg a ^^ f32Neg b) * ((n : ℚ) / d) * 2 ^ ((ex : ℤ) - 150)
      ∧ f32Div a b = f32Pack (f32Neg a ^^ f32Neg b) ex (roundNearestEven n d) := by
  obtain ⟨lowA, highA⟩ := f32Sig_range a
  obtain ⟨lowB, highB⟩ := f32Sig_range b
  have notZero : f32IsZero a = false := by
    simp only [f32IsNormal, Bool.and_eq_true, decide_eq_true_eq] at normalA
    simp only [f32IsZero, Bool.and_eq_false_iff, beq_eq_false_iff_ne]
    omega
  have quotient : f32Div a b = f32Pack (f32Neg a ^^ f32Neg b) (f32DivExp a b).toNat (f32DivSig a b) := by
    have inRange : f32DivExp a b ≤ 254 := by omega
    simp [f32Div, notZero, normalA, normalB, lowerExp, inRange]
  have posB : (0 : ℚ) < f32Sig b := by exact_mod_cast (by omega : 0 < f32Sig b)
  have whole (k : ℤ) : f32Value a / f32Value b
      = f32Sign (f32Neg a ^^ f32Neg b) * ((f32Sig a : ℚ) * 2 ^ (k : ℤ) / f32Sig b) * 2 ^ ((f32Exp a : ℤ) - f32Exp b - k) := by
    rw [f32Value_of_isNormal normalA, f32Value_of_isNormal normalB, ← f32Sign_mul]
    have powers : (2 : ℚ) ^ ((f32Exp a : ℤ) - 150) = 2 ^ k * 2 ^ ((f32Exp a : ℤ) - f32Exp b - k) * 2 ^ ((f32Exp b : ℤ) - 150) := by
      rw [← zpow_add₀ (by norm_num), ← zpow_add₀ (by norm_num)]
      congr 1
      ring
    have sign := f32Sign_mul_self (f32Neg b)
    have signNonzero : f32Sign (f32Neg b) ≠ 0 := by
      intro zero
      simp [zero] at sign
    have powNonzero : (2 : ℚ) ^ ((f32Exp b : ℤ) - 150) ≠ 0 := by positivity
    rw [powers]
    field_simp
    rw [pow_two, sign]
    ring
  have back : (((f32DivExp a b).toNat : Nat) : ℤ) = f32DivExp a b := Int.toNat_of_nonneg (by omega)
  by_cases h : f32Sig b ≤ f32Sig a
  · refine ⟨(f32DivExp a b).toNat, f32Sig a * 2 ^ 23, f32Sig b, back, by omega, by omega, by omega, ?_, ?_⟩
    · rw [whole 23, back, f32DivExp, if_pos h]
      push_cast
      rw [show ((f32Exp a : ℤ) - f32Exp b - 23) = f32Exp a - f32Exp b + 127 - 150 by ring]
    · rw [quotient, f32DivSig, if_pos h]
  · refine ⟨(f32DivExp a b).toNat, f32Sig a * 2 ^ 24, f32Sig b, back, by omega, by omega, by omega, ?_, ?_⟩
    · rw [whole 24, back, f32DivExp, if_neg h]
      push_cast
      rw [show ((f32Exp a : ℤ) - f32Exp b - 24) = f32Exp a - f32Exp b + 126 - 150 by ring]
    · rw [quotient, f32DivSig, if_neg h]

/-- R96: zero over a positive normal pattern is positive zero. -/
theorem f32Div_zero {b : Word} (normal : f32IsNormal b = true) (positive : f32Neg b = false) : f32Div 0#32 b = 0#32 := by
  have zero : f32IsZero 0#32 = true := by decide
  have sign : f32Neg 0#32 = false := by decide
  simp [f32Div, zero, sign, normal, positive, f32Pack]

/-- A value that some ordinary pattern has is not rounded. -/
theorem f32Nearest_exact {w v : Word} {x : ℚ} (nearest : f32Nearest w x) (ordinary : f32Ordinary v = true) (value : f32Value v = x) :
    f32Value w = x := by
  have near := (nearest v ordinary).1
  rw [value, sub_self, abs_zero] at near
  exact sub_eq_zero.mp (abs_eq_zero.mp (le_antisymm near (abs_nonneg _)))

/-- R91: the parts of a normal pattern, by which it can be packed again with another exponent. -/
theorem f32Value_rescaled {w : Word} (k : Nat) (normal : f32IsNormal w = true) (lower : k + 1 ≤ f32Exp w) (upper : f32Exp w ≤ 253) :
    f32Value (f32Pack (f32Neg w) (f32Exp w - k) (f32Sig w)) = f32Value w / 2 ^ k := by
  obtain ⟨low, high⟩ := f32Sig_range w
  rw [f32Value_f32Pack _ _ _ (by omega) (by omega) low high.le, f32Value_of_isNormal normal, Nat.cast_sub (by omega),
    show ((f32Exp w : ℤ) - k - 150) = (f32Exp w - 150) - k by ring, zpow_sub₀ (by norm_num), zpow_natCast]
  ring

end Sys2Proof.Machine
end

