-- ==== Sys2Proof/Laws/PerInstr.lean ====
section
/-! SUPPORT. Statements about instructions as syntax, one lemma per constructor: every term of `Instr` is well formed. -/

namespace Sys2Proof.Laws.WellFormed

/-- The encoding of the instruction passes every check of `WellFormed.lean`. -/
def Statement (i : Instr) : Prop := i.wellFormed = true

theorem ldcala (b : Payload 26) : Statement (.ldcala b) := by
  have listed : Opcode.ofByte 0x01#8 = some .ldcala := ofByte_byte .ldcala
  simp [Statement, Instr.wellFormed, encode, Encoding.wellFormed, opcodeListed, opcodeOnPort, frameLengthRight, payloadLengthOf,
    listed, Opcode.port, Opcode.payloadLength, Config.lenCalA]

theorem ldcalb (b : Payload 8) : Statement (.ldcalb b) := by
  have listed : Opcode.ofByte 0x02#8 = some .ldcalb := ofByte_byte .ldcalb
  simp [Statement, Instr.wellFormed, encode, Encoding.wellFormed, opcodeListed, opcodeOnPort, frameLengthRight, payloadLengthOf,
    listed, Opcode.port, Opcode.payloadLength, Config.lenCalB]

theorem start : Statement .start := rfl

theorem sample (b : Payload 8) : Statement (.sample b) := by
  have listed : Opcode.ofByte 0x10#8 = some .sample := ofByte_byte .sample
  simp [Statement, Instr.wellFormed, encode, Encoding.wellFormed, opcodeListed, opcodeOnPort, frameLengthRight, payloadLengthOf,
    listed, Opcode.port, Opcode.payloadLength, Config.lenBurst]

theorem nosamp : Statement .nosamp := rfl

theorem poll : Statement .poll := rfl

theorem rdp : Statement .rdp := rfl

theorem rdt : Statement .rdt := rfl

theorem rdh : Statement .rdh := rfl

theorem rdstat : Statement .rdstat := rfl

theorem reset : Statement .reset := rfl

theorem compt : Statement .compt := rfl

theorem compp : Statement .compp := rfl

theorem comph : Statement .comph := rfl

theorem cmtAcq : Statement .cmtAcq := rfl

theorem cmtWr : Statement .cmtWr := rfl

theorem cmtRel : Statement .cmtRel := rfl

theorem pollCopy : Statement .pollCopy := rfl

theorem pollRel : Statement .pollRel := rfl

end Sys2Proof.Laws.WellFormed
end

