-- ==== Sys2Proof/Tests/Slice0.lean ====
section
/-! SUPPORT. The model's own tests. Every expected value comes from the spec: the encodings of `30_encoding.md` R63 and R65, and the
vectors of `95_test_vectors.md`. The last part gives a witness for the hypotheses of every obligation that has any. -/

-- One test after the other: elaborated side by side, the many kernel evaluations would each hold a thread of their own.
set_option Elab.async false

namespace Sys2Proof.Tests

open Sys2Proof Sys2Proof.Machine

/-! ### Decoding: words written out from R63 and R65 -/

/-- CALA(K0) of `95_test_vectors.md`. -/
def calaK0 : Payload 26 :=
  #v[0x70#8, 0x6B#8, 0x43#8, 0x67#8, 0x18#8, 0xFC#8, 0x7D#8, 0x8E#8, 0x43#8, 0xD6#8, 0xD0#8, 0x0B#8, 0x27#8, 0x0B#8, 0x8C#8,
    0x00#8, 0xF9#8, 0xFF#8, 0x8C#8, 0x3C#8, 0xF8#8, 0xC6#8, 0x70#8, 0x17#8, 0x00#8, 0x4B#8]

/-- CALB(K0) of `95_test_vectors.md`. -/
def calbK0 : Payload 8 := #v[0x6F#8, 0x01#8, 0x00#8, 0x12#8, 0x2D#8, 0x03#8, 0x1E#8, 0x00#8]

/-- The burst of program 1. -/
def burst1 : Payload 8 := #v[0x65#8, 0x5A#8, 0xC0#8, 0x7E#8, 0xED#8, 0x00#8, 0x75#8, 0x30#8]

theorem test_decode_ldcala :
    decode (.frame .pp [0b00000001#8, 0x70#8, 0x6B#8, 0x43#8, 0x67#8, 0x18#8, 0xFC#8, 0x7D#8, 0x8E#8, 0x43#8, 0xD6#8, 0xD0#8, 0x0B#8,
      0x27#8, 0x0B#8, 0x8C#8, 0x00#8, 0xF9#8, 0xFF#8, 0x8C#8, 0x3C#8, 0xF8#8, 0xC6#8, 0x70#8, 0x17#8, 0x00#8, 0x4B#8])
      = some (.ldcala calaK0) := by decide

theorem test_decode_ldcalb :
    decode (.frame .pp [0b00000010#8, 0x6F#8, 0x01#8, 0x00#8, 0x12#8, 0x2D#8, 0x03#8, 0x1E#8, 0x00#8]) = some (.ldcalb calbK0) := by
  decide

theorem test_decode_start : decode (.frame .pp [0b00000011#8]) = some .start := by decide

theorem test_decode_sample :
    decode (.frame .pp [0b00010000#8, 0x65#8, 0x5A#8, 0xC0#8, 0x7E#8, 0xED#8, 0x00#8, 0x75#8, 0x30#8]) = some (.sample burst1) := by
  decide

theorem test_decode_nosamp : decode (.frame .pp [0b00010001#8]) = some .nosamp := by decide

theorem test_decode_poll : decode (.frame .cp [0b00100000#8]) = some .poll := by decide

theorem test_decode_rdp : decode (.frame .cp [0b00100001#8]) = some .rdp := by decide

theorem test_decode_rdt : decode (.frame .cp [0b00100010#8]) = some .rdt := by decide

theorem test_decode_rdh : decode (.frame .cp [0b00100011#8]) = some .rdh := by decide

theorem test_decode_rdstat : decode (.frame .hp [0b00110000#8]) = some .rdstat := by decide

theorem test_decode_reset : decode (.frame .hp [0b11110000#8]) = some .reset := by decide

theorem test_decode_compt : decode (.pseq 0b001#3) = some .compt := by decide

theorem test_decode_compp : decode (.pseq 0b010#3) = some .compp := by decide

theorem test_decode_comph : decode (.pseq 0b011#3) = some .comph := by decide

theorem test_decode_cmtAcq : decode (.pseq 0b100#3) = some .cmtAcq := by decide

theorem test_decode_cmtWr : decode (.pseq 0b101#3) = some .cmtWr := by decide

theorem test_decode_cmtRel : decode (.pseq 0b110#3) = some .cmtRel := by decide

theorem test_decode_pollCopy : decode (.cseq 0b01#2) = some .pollCopy := by decide

theorem test_decode_pollRel : decode (.cseq 0b10#2) = some .pollRel := by decide

/-- R67, section 2.8: reserved values, and POLL on PP, SAMPLE on CP, RESET on CP, are illegal; each is taken whole. -/
theorem test_illegal_frames :
    parseFrame .pp [0x7F#8, 0x11#8] = .reservedOpcode [0x11#8]
      ∧ parseFrame .pp [0x20#8] = .wrongPort []
      ∧ parseFrame .cp [0x10#8, 1#8, 2#8, 3#8, 4#8, 5#8, 6#8, 7#8, 8#8, 0x20#8] = .wrongPort [0x20#8]
      ∧ parseFrame .cp [0xF0#8] = .wrongPort [] := by decide

/-- R63: every opcode value outside the eleven listed ones is reserved. -/
theorem test_reserved_values : (List.range 256).filter (fun n => (Opcode.ofByte (BitVec.ofNat 8 n)).isSome)
    = [0x01, 0x02, 0x03, 0x10, 0x11, 0x20, 0x21, 0x22, 0x23, 0x30, 0xF0] := by decide +kernel

/-- The host's numbering: the opcode is the low byte, operand bytes above the word are zeros, 3 and 2 bits are sequencer codes. -/
theorem test_decodeTableWord :
    decodeTableWord 8 0x03 = some .start ∧ decodeTableWord 8 0x10 = some (.sample (Vector.replicate 8 0#8))
      ∧ decodeTableWord 8 0x04 = none ∧ decodeTableWord 3 5 = some .cmtWr ∧ decodeTableWord 3 7 = none
      ∧ decodeTableWord 2 1 = some .pollCopy := by decide

/-! ### Smoke tests of the well-formedness checks: each refuses its ill-formed term -/

theorem test_wellFormed_opcodeListed : opcodeListed [0x04#8] = false ∧ Encoding.wellFormed (.frame .pp [0x04#8]) = false := by decide

theorem test_wellFormed_opcodeOnPort : opcodeOnPort .pp [0x20#8] = false ∧ Encoding.wellFormed (.frame .pp [0x20#8]) = false := by
  decide

theorem test_wellFormed_frameLength :
    frameLengthRight (0x10#8 :: List.replicate 7 0#8) = false ∧ frameLengthRight [0x03#8, 0#8] = false
      ∧ Encoding.wellFormed (.frame .pp (0x10#8 :: List.replicate 7 0#8)) = false := by decide

theorem test_wellFormed_pseqCode :
    pseqCodeSelects 0#3 = false ∧ pseqCodeSelects 7#3 = false ∧ Encoding.wellFormed (.pseq 7#3) = false := by decide

theorem test_wellFormed_cseqCode :
    cseqCodeSelects 0#2 = false ∧ cseqCodeSelects 3#2 = false ∧ Encoding.wellFormed (.cseq 3#2) = false := by decide

theorem test_wellFormed_accepts : Instr.wellFormed (.sample burst1) = true ∧ Instr.wellFormed .cmtRel = true := by decide

/-! ### Primitives (sections 2.1 and 2.2) -/

theorem test_mul32_wraps : mul32 131071#32 32767#32 = BitVec.ofInt 32 (-163839) := by decide +kernel

theorem test_asr32_floors : asr32 (BitVec.ofInt 32 (-7)) 1 = BitVec.ofInt 32 (-4) := by decide +kernel

theorem test_shl32_negative : shl32 (BitVec.ofInt 32 (-2048)) 20 = BitVec.ofInt 32 (-2147483648) := by decide +kernel

theorem test_mul64_wraps : mul64 3037000500#64 3037000500#64 = BitVec.ofInt 64 (-9223372036709301616) := by decide +kernel

theorem test_asr64_floors : asr64 (BitVec.ofInt 64 (-1)) 33 = BitVec.ofInt 64 (-1) := by decide +kernel

theorem test_div64_truncates :
    div64 (BitVec.ofInt 64 (-7)) 2#64 = BitVec.ofInt 64 (-3) ∧ div64 (BitVec.ofInt 64 (-7)) (BitVec.ofInt 64 (-2)) = 3#64
      ∧ div64 (BitVec.ofInt 64 (-2 ^ 63)) (BitVec.ofInt 64 (-1)) = BitVec.ofInt 64 (-2 ^ 63) := by decide +kernel

theorem test_i32ToF32_ties :
    i32ToF32 16777217#32 = 0x4B800000#32 ∧ i32ToF32 16777219#32 = 0x4B800002#32 ∧ i32ToF32 2147483647#32 = 0x4F000000#32
      ∧ i32ToF32 (BitVec.ofInt 32 (-14088)) = 0xC65C2000#32 := by decide +kernel

theorem test_i64ToF32 :
    i64ToF32 (BitVec.ofInt 64 (-26725365554319)) = 0xD5C273DF#32 ∧ i64ToF32 (BitVec.ofInt 64 (2 ^ 63 - 1)) = 0x5F000000#32
      ∧ i64ToF32 25767233#64 = 0x4BC496A0#32 := by decide +kernel

theorem test_f32Div :
    f32Div (i32ToF32 5123#32) 0x42C80000#32 = 0x424CEB85#32 ∧ f32Div (i32ToF32 (BitVec.ofInt 32 (-1))) 0x42C80000#32 = 0xBC23D70A#32
      ∧ f32Div (i32ToF32 0#32) 0x42C80000#32 = 0#32 ∧ f32Div (i32ToF32 61519#32) 0x44800000#32 = 0x42704F00#32 := by decide +kernel

/-! ### Instructions (sections 2.3 to 2.8) -/

/-- The coefficient set K0, by its values. -/
def calK0 : Cal where
  t := ⟨27504#16, 26435#16, BitVec.ofInt 16 (-1000)⟩
  p := ⟨36477#16, BitVec.ofInt 16 (-10685), 3024#16, 2855#16, 140#16, BitVec.ofInt 16 (-7), 15500#16, BitVec.ofInt 16 (-14600), 6000#16⟩
  h := ⟨75#8, 367#16, 0#16, 301#16, 50#16, 30#8⟩

/-- The initialised state of program 1, with one agent's turns to come. -/
def ready (ts : List Agent) : State :=
  { State.reset with
    cal := calK0, calaLoaded := true, calbLoaded := true, started := true, ports := { Ports.quiet with turns := ts } }

/-- Program 1 after its decode step, at the stage `q`. -/
def inCycle (q : PSeq) (ts : List Agent) : State :=
  { ready ts with raw := ⟨415148#32, 519888#32, 30000#32⟩, pseq := q }

/-- Program 1 after COMPT, at the stage `q`. -/
def afterT (q : PSeq) : State :=
  { inCycle q [] with tFine := 128422#32, stage := ⟨0#32, 0x41C8A3D7#32, 0#32⟩ }

/-- The triple of program 1. -/
def triple1 : Triple := ⟨0x47C496A0#32, 0x41C8A3D7#32, 0x42704F00#32⟩

/-- Program 1 at a commit stage `q`. -/
def atCommit (q : PSeq) (l : Lock) (ts : List Agent) : State :=
  { inCycle q ts with tFine := 128422#32, stage := triple1, stagePok := true, lock := l }

/-- A state in which a poll is at the stage `q`. -/
def atPoll (q : CSeq) (fresh : Bool) (ts : List Agent) : State :=
  { ready ts with shared := triple1, hasSample := fresh, lock := .cons, cseq := q }

/-- The next state of an outcome, or the given state. -/
def nextOr (s : State) : Result → State
  | .next t => t
  | .fault _ => s
  | .refused _ => s

theorem test_ldcala : (nextOr State.reset (exec (.ldcala calaK0) State.reset)).cal = { calK0 with h := ⟨75#8, 0#16, 0#16, 0#16, 0#16, 0#8⟩ } := by
  decide +kernel

/-- Section 2.3: byte 24 is ignored, and T1 and P1 with bit 15 set are just 16 bits. -/
theorem test_ldcala_high_bits :
    (loadBlockA (Vector.ofFn fun i : Fin 26 => if i.val = 24 then 0xEE#8 else if i.val % 2 = 1 then 0x80#8 else 0x00#8) Cal.reset).t
      = ⟨32768#16, 32768#16, 32768#16⟩ := by decide +kernel

theorem test_ldcalb : (loadBlockB calbK0 { calK0 with h := ⟨75#8, 0#16, 0#16, 0#16, 0#16, 0#8⟩ }) = calK0 := by decide +kernel

/-- Section 2.3, the row that isolates the shared byte. -/
theorem test_ldcalb_nibbles :
    (loadBlockB #v[0xFF#8, 0x7F#8, 0x01#8, 0x00#8, 0x5A#8, 0x00#8, 0x00#8, 0x00#8] Cal.reset).h
      = ⟨0#8, 32767#16, 1#16, 10#16, 5#16, 0#8⟩ := by decide +kernel

theorem test_start_refused : exec .start { State.reset with calbLoaded := true } = .next { State.reset with calbLoaded := true } := rfl

theorem test_start : exec .start { State.reset with calaLoaded := true, calbLoaded := true }
    = .next { State.reset with calaLoaded := true, calbLoaded := true, started := true } := rfl

theorem test_sample : (nextOr (ready []) (exec (.sample burst1) (ready []))).raw = ⟨415148#32, 519888#32, 30000#32⟩
    ∧ (nextOr (ready []) (exec (.sample burst1) (ready []))).pseq = .compt := by decide +kernel

/-- Section 2.3: low nibbles are dropped. -/
theorem test_sample_low_nibbles : rawOfBurst #v[0x00#8, 0x00#8, 0x0F#8, 0x00#8, 0x00#8, 0x0F#8, 0x00#8, 0x00#8] = ⟨0#32, 0#32, 0#32⟩ := by
  decide +kernel

theorem test_nosamp : exec .nosamp (ready []) = .next (ready []) := rfl

theorem test_compt : (nextOr (ready []) (exec .compt (inCycle .compt []))).tFine = 128422#32
    ∧ (nextOr (ready []) (exec .compt (inCycle .compt []))).stage.t = 0x41C8A3D7#32 := by decide +kernel

/-- Section 2.4, the row that wraps. -/
theorem test_compt_wraps : compT 1048575#32 ⟨0#16, 32767#16, 0#16⟩ = ⟨BitVec.ofInt 32 (-80), BitVec.ofInt 32 (-2), 0xBCA3D70A#32⟩ := by
  decide +kernel

theorem test_compp : (nextOr (ready []) (exec .compp (afterT .compp))).stage.p = 0x47C496A0#32
    ∧ (nextOr (ready []) (exec .compp (afterT .compp))).stagePok = true := by decide +kernel

/-- Section 2.5, the last row (wraps at 64 bits) and the row in which no coefficient P1 is zero and the divisor is. -/
theorem test_compp_corners :
    compP 415148#32 1176577#32 { calK0.p with p1 := 1#16, p2 := 32768#16, p3 := 0#16 }
        = some ⟨BitVec.ofInt 64 (-15266498873551604), 0xD658F333#32⟩
      ∧ compP 415148#32 1176576#32 { calK0.p with p2 := 32768#16, p3 := 0#16 } = none := by decide +kernel

theorem test_comph : (nextOr (ready []) (exec .comph (afterT .comph))).stage.h = 0x42704F00#32
    ∧ (nextOr (ready []) (exec .comph (afterT .comph))).pseq = .idle := by decide +kernel

/-- Section 2.6, the pair around the upper bound. -/
theorem test_comph_clamp :
    compH 37132#32 128422#32 calK0.h = ⟨102391#32, 0x42C7FB80#32⟩ ∧ compH 37133#32 128422#32 calK0.h = ⟨102400#32, 0x42C80000#32⟩ := by
  decide +kernel

theorem test_cmtAcq_waits : exec .cmtAcq (atCommit .cmtAcq .cons []) = .next (atCommit .cmtAcq .cons []) := rfl

theorem test_cmtAcq : (nextOr (ready []) (exec .cmtAcq (atCommit .cmtAcq .free []))).lock = .prod
    ∧ (nextOr (ready []) (exec .cmtAcq (atCommit .cmtAcq .free []))).pseq = .cmtWr := by decide +kernel

theorem test_cmtWr : (nextOr (ready []) (exec .cmtWr (atCommit .cmtWr .prod []))).shared = triple1
    ∧ (nextOr (ready []) (exec .cmtWr (atCommit .cmtWr .prod []))).hasSample = true := by decide +kernel

theorem test_cmtRel : (nextOr (ready []) (exec .cmtRel (atCommit .cmtRel .prod []))).lock = .free
    ∧ (nextOr (ready []) (exec .cmtRel (atCommit .cmtRel .prod []))).pseq = .idle := by decide +kernel

theorem test_poll : (nextOr (ready []) (exec .poll (ready []))).lock = .cons ∧ (nextOr (ready []) (exec .poll (ready []))).cseq = .pollCopy := by
  decide +kernel

theorem test_poll_turned_away : exec .poll (atCommit .cmtWr .prod []) = .next (atCommit .cmtWr .prod []) := rfl

theorem test_pollCopy : (nextOr (ready []) (exec .pollCopy (atPoll .pollCopy true []))).out = triple1
    ∧ (nextOr (ready []) (exec .pollCopy (atPoll .pollCopy true []))).hasSample = false := by decide +kernel

theorem test_pollCopy_nothing_new : (nextOr (ready []) (exec .pollCopy (atPoll .pollCopy false []))).out = Triple.outReset := by
  decide +kernel

theorem test_pollRel : (nextOr (ready []) (exec .pollRel (atPoll .pollRel false []))).lock = .free
    ∧ (nextOr (ready []) (exec .pollRel (atPoll .pollRel false []))).cseq = .idle := by decide +kernel

theorem test_reads :
    (nextOr (ready []) (exec .rdp { ready [] with out := triple1 })).ports.cpOut = [0x47C496A0#32]
      ∧ (nextOr (ready []) (exec .rdt { ready [] with out := triple1 })).ports.cpOut = [0x41C8A3D7#32]
      ∧ (nextOr (ready []) (exec .rdh { ready [] with out := triple1 })).ports.cpOut = [0x42704F00#32] := by decide +kernel

/-- Section 2.8: 0x0000033F and 0x00000547. -/
theorem test_rdstat :
    (nextOr (ready []) (exec .rdstat { atCommit .cmtRel .prod [] with hasSample := true })).ports.hpOut = [0x0000033F#32]
      ∧ (nextOr (ready []) (exec .rdstat { atPoll .pollCopy false [] with pseq := .compp })).ports.hpOut = [0x00000547#32] := by
  decide +kernel

theorem test_reset : exec .reset (atPoll .pollCopy true []) = .next State.reset := rfl

/-! ### The step -/

/-- A step of the reset state with a placed word runs it: RESET, and SAMPLE (ignored before START). -/
theorem test_withFetchWord_frame :
    step (State.reset.withFetchWord 8 0xF0) = .next State.reset ∧ step (State.reset.withFetchWord 8 0x10) = .next State.reset := ⟨rfl, rfl⟩

/-- The same with a stage: CMT_WR, then POLL_REL. -/
theorem test_withFetchWord_stage :
    step (State.reset.withFetchWord 3 5) = .next { State.reset with hasSample := true, pseq := .cmtRel }
      ∧ step (State.reset.withFetchWord 2 2) = .next State.reset := ⟨rfl, rfl⟩

/-- R48, R66: with nothing to do a turn is spent; an illegal frame is dropped. -/
theorem test_step_drops_illegal :
    step { State.reset with ports := { Ports.quiet with turns := [.producer], pp := [0x7F#8, 0x03#8] } }
      = .next { State.reset with ports := { Ports.quiet with pp := [0x03#8] } } := rfl

/-- C5, R204: a SAMPLE that stands on PP while the producer waits is left there. -/
theorem test_step_early_command :
    (nextOr State.reset (step { atCommit .cmtAcq .cons [.producer] with ports := { Ports.quiet with turns := [.producer], pp := [0x11#8] } })).ports.pp
      = [0x11#8] := by decide +kernel

/-! ### Witnesses of the obligations' hypotheses -/

theorem witness_EncodeAfterDecode :
    decode (.frame .hp [0x30#8]) = some .rdstat ∧ decode (.pseq 6#3) = some .cmtRel ∧ decode (.cseq 2#2) = some .pollRel := by decide

theorem witness_PortTakesWholeFrames :
    encode .start = .frame .pp [0x03#8] ∧ 0 < [0x03#8].length
      ∧ encode (.sample burst1) = .frame .pp (0x10#8 :: burst1.toList) ∧ 8 < (0x10#8 :: burst1.toList).length := by decide

theorem witness_StepRunsDecodedInstruction :
    ((inCycle .compt [.producer]).ports.turns = .producer :: [] ∧ decode (.pseq (inCycle .compt [.producer]).pseq.code) = some .compt)
      ∧ ((atPoll .pollRel true [.consumer]).ports.turns = .consumer :: []
        ∧ decode (.cseq (atPoll .pollRel true [.consumer]).cseq.code) = some .pollRel)
      ∧ ∃ s : State, s.ports.turns = agentOf .cp :: [] ∧ s.portIdle .cp = true ∧ s.stream .cp = [0x20#8] ++ [0x21#8]
        ∧ decode (.frame .cp [0x20#8]) = some .poll :=
  ⟨by decide, by decide,
    { State.reset with ports := { Ports.quiet with turns := [.consumer], cp := [0x20#8, 0x21#8] } }, rfl, rfl, rfl, by decide⟩

theorem witness_EarlyCommandWaits :
    (inCycle .cmtRel [.producer]).ports.turns = agentOf .pp :: [] ∧ (inCycle .cmtRel [.producer]).portIdle .pp = false
      ∧ (atPoll .pollCopy true [.consumer]).ports.turns = agentOf .cp :: [] ∧ (atPoll .pollCopy true [.consumer]).portIdle .cp = false := by
  decide

/-- Both kinds of illegal frame: reserved on HP (one byte), and START listed for PP but sent on CP; the two premises on the opcode. -/
theorem witness_IllegalAndRefusedCommandsAreIgnored :
    (∃ s : State, s.ports.turns = agentOf .hp :: [] ∧ s.portIdle .hp = true ∧ s.stream .hp = 0xFF#8 :: ([] ++ [])
        ∧ (∀ o : Opcode, o.byte = 0xFF#8 → o.port ≠ .hp ∧ ([] : List Byte).length = o.payloadLength)
        ∧ ((∀ o : Opcode, o.byte ≠ 0xFF#8) → ([] : List Byte) = []))
      ∧ (∃ s : State, s.ports.turns = agentOf .cp :: [] ∧ s.portIdle .cp = true ∧ s.stream .cp = 0x02#8 :: (calbK0.toList ++ [0x20#8])
        ∧ (∀ o : Opcode, o.byte = 0x02#8 → o.port ≠ .cp ∧ calbK0.toList.length = o.payloadLength)
        ∧ ((∀ o : Opcode, o.byte ≠ 0x02#8) → calbK0.toList = []))
      ∧ (ready []).started = true ∧ State.reset.calaLoaded = false ∧ State.reset.started = false := by
  refine ⟨⟨{ State.reset with ports := { Ports.quiet with turns := [.host], hp := [0xFF#8] } }, rfl, rfl, rfl, ?_, fun _ => rfl⟩,
    ⟨{ State.reset with ports := { Ports.quiet with turns := [.consumer], cp := 0x02#8 :: (calbK0.toList ++ [0x20#8]) } }, rfl, rfl, rfl,
      ?_, fun none_listed => absurd rfl (none_listed .ldcalb)⟩, rfl, rfl, rfl⟩ <;> intro o h <;> cases o <;> revert h <;> decide

theorem witness_NothingHappensWithoutCommand :
    State.reset.ports.turns = []
      ∧ ∃ s : State, s.ports.turns = agentOf .pp :: [] ∧ s.portIdle .pp = true ∧ parseFrame .pp (s.stream .pp) = .incomplete :=
  ⟨rfl, { State.reset with ports := { Ports.quiet with turns := [.producer], pp := 0x10#8 :: List.replicate 7 0#8 } }, rfl, rfl, by decide⟩

/-- LoadBlockA, LoadBlockB, StartNeedsBothBlocks, SampleDecodesBurst: each premise on the flags. -/
theorem witness_initialisation_flags :
    (ready []).started = true ∧ State.reset.started = false ∧ State.reset.calbLoaded = false
      ∧ ∃ s : State, s.started = false ∧ s.calaLoaded = true ∧ s.calbLoaded = true :=
  ⟨rfl, rfl, rfl, { State.reset with calaLoaded := true, calbLoaded := true }, rfl, rfl, rfl⟩

theorem witness_CoefficientsFrozenAfterStart : (inCycle .compt [.producer]).started = true
    ∧ ∃ t, step (inCycle .compt [.producer]) = .next t :=
  ⟨rfl, _, rfl⟩

theorem witness_InitialisationReachesLaunchState : ∃ ps : Ports,
    ps.pp = 0x01#8 :: calaK0.toList ++ (0x02#8 :: calbK0.toList) ++ 0x03#8 :: [] ∧ ps.turns = .producer :: .producer :: .producer :: [] :=
  ⟨{ Ports.quiet with
      pp := 0x01#8 :: calaK0.toList ++ (0x02#8 :: calbK0.toList) ++ [0x03#8]
      turns := [.producer, .producer, .producer] }, rfl, rfl⟩

/-- Payloads that differ exactly in the unused bits. -/
theorem witness_UnusedPayloadBitsHaveNoEffect :
    (∀ i : Fin 26, i.val ≠ 24 → (calaK0.set 24 0xA5#8)[i.val] = calaK0[i.val])
      ∧ (∀ i : Fin 8, i.val ≠ 7 → (calbK0.set 7 0x77#8)[i.val] = calbK0[i.val])
      ∧ (∀ i : Fin 8, i.val ≠ 2 → i.val ≠ 5 → ((burst1.set 2 0xCF#8).set 5 0x0F#8)[i.val] = burst1[i.val])
      ∧ ((burst1.set 2 0xCF#8).set 5 0x0F#8)[2].toNat / 16 = burst1[2].toNat / 16
      ∧ ((burst1.set 2 0xCF#8).set 5 0x0F#8)[5].toNat / 16 = burst1[5].toNat / 16 := by decide +kernel

/-- PressureStage and AbortExactlyOnSmallProduct: both sides of the guard. -/
theorem witness_PressureStage :
    cPressDivisor 128422#32 calK0.p ≠ 0#64 ∧ cPressDivisor 128422#32 { calK0.p with p1 := 0#16 } = 0#64 := by decide +kernel

/-- HumidityClampsAtBounds: exactly 0 at the lower bound, and the row 37133 above the upper. -/
theorem witness_HumidityClampsAtBounds :
    (cHumPreClamp 19421#32 128422#32 calK0.h).toInt = 0 ∧ 419430400 ≤ (cHumPreClamp 37133#32 128422#32 calK0.h).toInt := by
  decide +kernel

/-- IntegerPrimitivesWrap and RightShiftsFloor (the largest counts), DivisionTruncates (the corner, and a pair outside it). -/
theorem witness_arithmetic : 31 ≤ 31 ∧ 63 ≤ 63 ∧ (BitVec.ofInt 64 (-1) : DWord) ≠ 0#64
    ∧ (BitVec.ofInt 64 (-2 ^ 63) : DWord).toInt = -2 ^ 63 ∧ (BitVec.ofInt 64 (-1) : DWord).toInt = -1
    ∧ ¬((BitVec.ofInt 64 (-2 ^ 63) : DWord).toInt = -2 ^ 63 ∧ (1#64).toInt = -1) := by decide +kernel

theorem witness_SmallIntegersConvertExactly :
    (16777215#32).toInt.natAbs < 2 ^ 24 ∧ (BitVec.ofInt 64 (-16777215) : DWord).toInt.natAbs < 2 ^ 24 := by decide +kernel

/-- CommitAcquires, PollTries: the lock free, and held by each agent; PollCopies: with and without a fresh sample. -/
theorem witness_lock_and_flag :
    (atCommit .cmtAcq .free []).lock = .free ∧ (atCommit .cmtAcq .cons []).lock ≠ .free ∧ (atCommit .cmtWr .prod []).lock ≠ .free
      ∧ (atPoll .pollCopy true []).hasSample = true ∧ (atPoll .pollCopy false []).hasSample = false := by decide

/-- WholePoll: with the lock free, and with the lock held by the producer. -/
theorem witness_WholePoll :
    (∃ s : State, s.cseq = .idle ∧ s.ports.cp = 0x20#8 :: [] ∧ s.lock = .free
        ∧ s.ports.turns = .consumer :: .consumer :: .consumer :: [])
      ∧ ∃ s : State, s.cseq = .idle ∧ s.ports.cp = 0x20#8 :: [] ∧ s.lock ≠ .free ∧ s.ports.turns = .consumer :: [] :=
  ⟨⟨{ State.reset with ports := { Ports.quiet with cp := [0x20#8], turns := [.consumer, .consumer, .consumer] } }, rfl, rfl, rfl, rfl⟩,
    { State.reset with lock := .prod, ports := { Ports.quiet with cp := [0x20#8], turns := [.consumer] } }, rfl, rfl, by decide, rfl⟩

theorem witness_CommitPollInterleavings : ∃ (s : State) (cp : List Byte),
    s.lock = .free ∧ s.pseq = .cmtAcq ∧ s.cseq = .idle ∧ s.ports.cp = 0x20#8 :: cp ∧ cp = 0x20#8 :: [] :=
  ⟨{ atCommit .cmtAcq .free [] with ports := { Ports.quiet with cp := [0x20#8, 0x20#8] } }, [0x20#8], rfl, rfl, rfl, rfl, rfl⟩

theorem witness_ProducerWaitEnds :
    (∃ s : State, s.pseq = .cmtAcq ∧ s.lock = .cons ∧ s.cseq = .pollCopy ∧ s.ports.turns = .consumer :: .consumer :: .producer :: [])
      ∧ ∃ s : State, s.pseq = .cmtAcq ∧ s.lock = .cons ∧ s.cseq = .pollRel ∧ s.ports.turns = .consumer :: .producer :: [] :=
  ⟨⟨{ atCommit .cmtAcq .cons [.consumer, .consumer, .producer] with cseq := .pollCopy }, rfl, rfl, rfl, rfl⟩,
    ⟨{ atCommit .cmtAcq .cons [.consumer, .producer] with cseq := .pollRel }, rfl, rfl, rfl, rfl⟩⟩

/-- Every premise of the frame statement is met by the register's owner, run once. -/
theorem witness_RegistersWrittenOnlyByTheirOwners :
    let after (i : Instr) (s : State) := nextOr s (exec i s)
    (after (.ldcala calaK0) State.reset).cal ≠ State.reset.cal
      ∧ (after (.ldcala calaK0) State.reset).calaLoaded ≠ State.reset.calaLoaded
      ∧ (after (.ldcalb calbK0) State.reset).calbLoaded ≠ State.reset.calbLoaded
      ∧ (after .start { State.reset with calaLoaded := true, calbLoaded := true }).started ≠ State.reset.started
      ∧ (after (.sample burst1) (ready [])).raw ≠ (ready []).raw
      ∧ (after .compt (inCycle .compt [])).tFine ≠ (inCycle .compt []).tFine
      ∧ (after .compp (afterT .compp)).stage.p ≠ (afterT .compp).stage.p
      ∧ (after .compt (inCycle .compt [])).stage.t ≠ (inCycle .compt []).stage.t
      ∧ (after .comph (afterT .comph)).stage.h ≠ (afterT .comph).stage.h
      ∧ (after .compp (afterT .compp)).stagePok ≠ (afterT .compp).stagePok
      ∧ (after .cmtWr (atCommit .cmtWr .prod [])).shared ≠ (atCommit .cmtWr .prod []).shared
      ∧ (after .cmtWr (atCommit .cmtWr .prod [])).hasSample ≠ (atCommit .cmtWr .prod []).hasSample
      ∧ (after .cmtRel (atCommit .cmtRel .prod [])).lock ≠ (atCommit .cmtRel .prod []).lock
      ∧ (after .pollCopy (atPoll .pollCopy true [])).out ≠ (atPoll .pollCopy true []).out
      ∧ (after (.sample burst1) (ready [])).pseq ≠ (ready []).pseq
      ∧ (after .poll (ready [])).cseq ≠ (ready []).cseq := by decide +kernel

/-- ProducerSequence and every other statement that only assumes a next state. -/
theorem witness_step_answers : ∃ t, step (atCommit .cmtWr .prod [.producer]) = .next t := ⟨_, rfl⟩

/-- MutualExclusion: a producer step and a consumer step that meet the premises. -/
theorem witness_MutualExclusion :
    ((atCommit .cmtWr .prod [.producer]).LockOwned
        ∧ ∃ t, step (atCommit .cmtWr .prod [.producer]) = .next t ∧ t.shared ≠ (atCommit .cmtWr .prod [.producer]).shared)
      ∧ (atPoll .pollCopy true [.consumer]).LockOwned
        ∧ ∃ t, step (atPoll .pollCopy true [.consumer]) = .next t ∧ t.hasSample ≠ (atPoll .pollCopy true [.consumer]).hasSample :=
  ⟨⟨by decide, _, rfl, by decide⟩, by decide, _, rfl, by decide⟩

/-- LockTransitions: each of the four transitions, in a state that meets the premises. -/
theorem witness_LockTransitions :
    ((atCommit .cmtAcq .free [.producer]).LockOwned ∧ ∃ t, step (atCommit .cmtAcq .free [.producer]) = .next t ∧ t.lock ≠ .free)
      ∧ ((atCommit .cmtRel .prod [.producer]).LockOwned ∧ ∃ t, step (atCommit .cmtRel .prod [.producer]) = .next t ∧ t.lock ≠ .prod)
      ∧ ((atPoll .pollRel false [.consumer]).LockOwned ∧ ∃ t, step (atPoll .pollRel false [.consumer]) = .next t ∧ t.lock ≠ .cons)
      ∧ ∃ s : State, s.LockOwned ∧ s.lock = .free ∧ ∃ t, step s = .next t ∧ t.lock ≠ .free :=
  ⟨⟨by decide, _, rfl, by decide⟩, ⟨by decide, _, rfl, by decide⟩, ⟨by decide, _, rfl, by decide⟩,
    { State.reset with ports := { Ports.quiet with cp := [0x20#8], turns := [.consumer] } }, by decide, rfl, _, rfl, by decide⟩

theorem witness_AgentsKeepToTheirRegisters :
    (∃ t, step (atPoll .pollCopy true [.consumer]) = .next t) ∧ (atPoll .pollCopy true [.consumer]).ports.turns = .consumer :: []
      ∧ (∃ t, step (atCommit .cmtWr .prod [.producer]) = .next t) ∧ (atCommit .cmtWr .prod [.producer]).ports.turns = .producer :: [] :=
  ⟨⟨_, rfl⟩, rfl, ⟨_, rfl⟩, rfl⟩

/-- CyclePublishesItsOwnTriple, first clause: the burst of program 1 gives its triple. -/
theorem witness_CyclePublishesItsOwnTriple_published : ∃ s : State,
    s.pseq = .compt ∧ s.lock = .free ∧ s.stagePok = false ∧ tripleOfRaw s.raw s.cal = some triple1
      ∧ s.ports.turns = List.replicate 6 Agent.producer ++ [] :=
  ⟨inCycle .compt (List.replicate 6 .producer), rfl, rfl, rfl, by decide +kernel, rfl⟩

/-- CyclePublishesItsOwnTriple, second clause: with P1 = 0 (program 2) the burst gives none. -/
theorem witness_CyclePublishesItsOwnTriple_skipped : ∃ s : State,
    s.pseq = .compt ∧ s.lock = .free ∧ s.stagePok = false ∧ tripleOfRaw s.raw s.cal = none
      ∧ s.ports.turns = List.replicate 3 Agent.producer ++ [] :=
  ⟨{ inCycle .compt (List.replicate 3 .producer) with cal := { calK0 with p := { calK0.p with p1 := 0#16 } } }, rfl, rfl, rfl,
    by decide +kernel, rfl⟩

/-- NoTornTriple: a run of two steps that publishes. -/
theorem witness_NoTornTriple : (∃ t, core.run 2 (atCommit .cmtAcq .free [.producer, .producer]) = .next t ∧ t.shared = triple1)
    ∧ publishedIn 2 (atCommit .cmtAcq .free [.producer, .producer]) = [triple1] :=
  ⟨⟨_, rfl, rfl⟩, rfl⟩

/-- OutputsComeFromOneBurst: program 1 at CMT_WR with the reset triple published so far, and at POLL_COPY with the triple of its burst
published, each with a step. -/
theorem witness_OutputsComeFromOneBurst :
    (∃ s t : State, s.CycleInv ∧ s.RawInRange ∧ s.Genuine s.shared ∧ s.Genuine s.out ∧ s.shared = Triple.zero ∧ core.run 1 s = .next t)
      ∧ ∃ s t : State, s.CycleInv ∧ s.RawInRange ∧ s.Genuine s.shared ∧ s.Genuine s.out ∧ s.shared = triple1 ∧ core.run 1 s = .next t :=
  ⟨⟨atCommit .cmtWr .prod [.producer], _, by decide +kernel, by decide +kernel, .inl rfl, .inl rfl, rfl, rfl⟩,
    atPoll .pollCopy true [.consumer], _, by decide +kernel, by decide +kernel, .inr (.inr ⟨rfl, burst1, by decide +kernel⟩), .inl rfl,
    rfl, rfl⟩

/-- PublishedTripleIsOneBurst: program 1 at CMT_WR. -/
theorem witness_PublishedTripleIsOneBurst :
    (atCommit .cmtWr .prod [.producer]).CycleInv ∧ (atCommit .cmtWr .prod [.producer]).fetch.1 = some .cmtWr
      ∧ ∃ t, step (atCommit .cmtWr .prod [.producer]) = .next t :=
  ⟨by decide +kernel, by decide +kernel, _, rfl⟩

/-- The three invariants in a state in the middle of a cycle, with a step that answers. -/
theorem witness_invariants :
    (atCommit .cmtWr .prod [.producer]).Inv ∧ (atCommit .cmtWr .prod [.producer]).CycleInv
      ∧ (atCommit .cmtWr .prod [.producer]).FloatsOrdinary ∧ (atCommit .cmtWr .prod [.producer]).pseq = .cmtWr := by decide +kernel

end Sys2Proof.Tests
end

section
/-! PROOFS. The family of `10_state.md`: what one step can do to the registers, and what every step keeps. -/

namespace Sys2Proof.Machine

variable {s t : State}

/-! ### What one step can do to the registers -/

/-- What one step can do to the registers of `s`, one constructor per effect, each with the instruction that was run, what its sequencer
held, and the guard of its rule. The ports may be any: no register depends on them. -/
inductive RegisterMove (s : State) : State → Prop
  /-- R62, R66, R67, R113, R171 to R174, R187: nothing to run, an ignored command, a wait or a read. -/
  | still (ps : Ports) : RegisterMove s { s with ports := ps }
  /-- R100: LDCALA before START. -/
  | loadA (b : Payload 26) (ps : Ports) (ran : s.fetch.1 = some (.ldcala b)) (pseq : s.pseq = .idle) (stopped : s.started = false) :
      RegisterMove s { s with cal := loadBlockA b s.cal, calaLoaded := true, ports := ps }
  /-- R101: LDCALB before START. -/
  | loadB (b : Payload 8) (ps : Ports) (ran : s.fetch.1 = some (.ldcalb b)) (pseq : s.pseq = .idle) (stopped : s.started = false) :
      RegisterMove s { s with cal := loadBlockB b s.cal, calbLoaded := true, ports := ps }
  /-- R102: START with both blocks loaded. -/
  | start (ps : Ports) (ran : s.fetch.1 = some .start) (pseq : s.pseq = .idle) (stopped : s.started = false)
      (loadedA : s.calaLoaded = true) (loadedB : s.calbLoaded = true) :
      RegisterMove s { s with started := true, ports := ps }
  /-- R110: SAMPLE after START. -/
  | sample (b : Payload 8) (ps : Ports) (ran : s.fetch.1 = some (.sample b)) (pseq : s.pseq = .idle) (started : s.started = true) :
      RegisterMove s { s with raw := rawOfBurst b, stagePok := false, pseq := .compt, ports := ps }
  /-- R121: COMPT. -/
  | temperature (ps : Ports) (ran : s.fetch.1 = some .compt) (pseq : s.pseq = .compt) :
      RegisterMove s
        { s with
          tFine := (compT s.raw.t s.cal.t).tFine
          stage := { s.stage with t := (compT s.raw.t s.cal.t).temp }
          pseq := .compp
          ports := ps }
  /-- R131: COMPP on ABORT. -/
  | pressureAbort (ps : Ports) (ran : s.fetch.1 = some .compp) (pseq : s.pseq = .compp)
      (abort : compP s.raw.p s.tFine s.cal.p = none) :
      RegisterMove s { s with pseq := .comph, ports := ps }
  /-- R131: COMPP on a result. -/
  | pressure (r : PressResult) (ps : Ports) (ran : s.fetch.1 = some .compp) (pseq : s.pseq = .compp)
      (result : compP s.raw.p s.tFine s.cal.p = some r) :
      RegisterMove s { s with stage := { s.stage with p := r.press }, stagePok := true, pseq := .comph, ports := ps }
  /-- R141: COMPH, after a pressure or after an ABORT. -/
  | humidity (ps : Ports) (ran : s.fetch.1 = some .comph) (pseq : s.pseq = .comph) :
      RegisterMove s
        { s with
          stage := { s.stage with h := (compH s.raw.h s.tFine s.cal.h).hum }
          pseq := if s.stagePok then .cmtAcq else .idle
          ports := ps }
  /-- R150: CMT_ACQ with the lock free. -/
  | commitAcquire (ps : Ports) (ran : s.fetch.1 = some .cmtAcq) (pseq : s.pseq = .cmtAcq) (free : s.lock = .free) :
      RegisterMove s { s with lock := .prod, pseq := .cmtWr, ports := ps }
  /-- R151: CMT_WR. -/
  | publish (ps : Ports) (ran : s.fetch.1 = some .cmtWr) (pseq : s.pseq = .cmtWr) :
      RegisterMove s { s with shared := s.stage, hasSample := true, pseq := .cmtRel, ports := ps }
  /-- R152: CMT_REL. -/
  | commitRelease (ps : Ports) (ran : s.fetch.1 = some .cmtRel) (pseq : s.pseq = .cmtRel) :
      RegisterMove s { s with lock := .free, pseq := .idle, ports := ps }
  /-- R154: POLL with the lock free. -/
  | pollAcquire (ps : Ports) (ran : s.fetch.1 = some .poll) (cseq : s.cseq = .idle) (free : s.lock = .free) :
      RegisterMove s { s with lock := .cons, cseq := .pollCopy, ports := ps }
  /-- R155: POLL_COPY without a fresh sample. -/
  | pollStale (ps : Ports) (ran : s.fetch.1 = some .pollCopy) (cseq : s.cseq = .pollCopy) (stale : s.hasSample = false) :
      RegisterMove s { s with cseq := .pollRel, ports := ps }
  /-- R155: POLL_COPY with a fresh sample. -/
  | pollFresh (ps : Ports) (ran : s.fetch.1 = some .pollCopy) (cseq : s.cseq = .pollCopy) (fresh : s.hasSample = true) :
      RegisterMove s { s with out := s.shared, hasSample := false, cseq := .pollRel, ports := ps }
  /-- R156: POLL_REL. -/
  | pollRelease (ps : Ports) (ran : s.fetch.1 = some .pollRel) (cseq : s.cseq = .pollRel) :
      RegisterMove s { s with lock := .free, cseq := .idle, ports := ps }
  /-- R170, R36: RESET. -/
  | reset (ps : Ports) (ran : s.fetch.1 = some .reset) : RegisterMove s { State.reset with ports := ps }

/-- Every step is one of the register moves. -/
theorem step_registerMove (h : step s = .next t) : RegisterMove s t := by
  obtain ⟨ps, -, rfl⟩ | ⟨i, ps, ran, ready, effect⟩ := step_registers h
  · exact .still ps
  cases i with
  | ldcala b =>
    obtain ⟨-, rfl⟩ | ⟨stopped, rfl⟩ := execLdcala_cases effect
    · exact .still ps
    · exact .loadA b ps ran ready stopped
  | ldcalb b =>
    obtain ⟨-, rfl⟩ | ⟨stopped, rfl⟩ := execLdcalb_cases effect
    · exact .still ps
    · exact .loadB b ps ran ready stopped
  | start =>
    obtain ⟨-, rfl⟩ | ⟨may, rfl⟩ := execStart_cases effect
    · exact .still ps
    · obtain ⟨⟨stopped, loadedA⟩, loadedB⟩ : (s.started = false ∧ s.calaLoaded = true) ∧ s.calbLoaded = true := by
        simpa [State.mayStart] using may
      exact .start ps ran ready stopped loadedA loadedB
  | sample b =>
    obtain ⟨-, rfl⟩ | ⟨started, rfl⟩ := execSample_cases effect
    · exact .still ps
    · exact .sample b ps ran ready started
  | compp =>
    obtain ⟨abort, rfl⟩ | ⟨r, result, rfl⟩ := execCompp_cases effect
    · exact .pressureAbort ps ran ready abort
    · exact .pressure r ps ran ready result
  | cmtAcq =>
    obtain ⟨-, rfl⟩ | ⟨free, rfl⟩ := execCmtAcq_cases effect
    · exact .still ps
    · exact .commitAcquire ps ran ready free
  | poll =>
    obtain ⟨-, rfl⟩ | ⟨free, rfl⟩ := execPoll_cases effect
    · exact .still ps
    · exact .pollAcquire ps ran ready free
  | pollCopy =>
    obtain ⟨stale, rfl⟩ | ⟨fresh, rfl⟩ := execPollCopy_cases effect
    · exact .pollStale ps ran ready stale
    · exact .pollFresh ps ran ready fresh
  | nosamp | rdp | rdt | rdh | rdstat =>
    cases effect
    exact .still _
  | compt =>
    cases effect
    exact .temperature ps ran ready
  | comph =>
    cases effect
    exact .humidity ps ran ready
  | cmtWr =>
    cases effect
    exact .publish ps ran ready
  | cmtRel =>
    cases effect
    exact .commitRelease ps ran ready
  | pollRel =>
    cases effect
    exact .pollRelease ps ran ready
  | reset =>
    cases effect
    exact .reset ps ran

/-! ### The sequencers, the lock and the coefficients -/

/-- Settles O44, by the register moves: only the producer's moves write PSEQ. -/
theorem producerSequence : Obligations.ProducerSequence := by
  intro s t h
  cases step_registerMove h with
  | still | loadA | loadB | start | pollAcquire | pollStale | pollFresh | pollRelease => exact .inl rfl
  | humidity ps ran pseq => exact .inr (.inr (.inl ⟨pseq, rfl⟩))
  | reset ps ran => exact .inr (.inr (.inr ⟨ran, rfl⟩))
  | sample _ _ _ pseq | temperature _ _ pseq | pressureAbort _ _ pseq | pressure _ _ _ pseq | commitAcquire _ _ pseq
  | publish _ _ pseq | commitRelease _ _ pseq => exact .inr (.inl (by simp [pseq]))

/-- Settles O45, by the register moves: only the consumer's moves write CSEQ. -/
theorem consumerSequence : Obligations.ConsumerSequence := by
  intro s t h
  cases step_registerMove h with
  | pollAcquire _ _ cseq | pollStale _ _ cseq | pollFresh _ _ cseq | pollRelease _ _ cseq => exact .inr (.inl (by simp [cseq]))
  | reset ps ran => exact .inr (.inr ⟨ran, rfl⟩)
  | _ => exact .inl rfl

/-- Settles O46, by the register moves: the ownership of the lock says who holds it when it is freed. -/
theorem lockTransitions : Obligations.LockTransitions := by
  intro s t ⟨prodOwns, consOwns⟩ h changed
  cases step_registerMove h with
  | commitAcquire ps ran pseq free => exact .inl ⟨ran, free, rfl⟩
  | commitRelease ps ran pseq => exact .inr (.inl ⟨ran, prodOwns.mpr (.inr pseq), rfl⟩)
  | pollAcquire ps ran cseq free => exact .inr (.inr (.inl ⟨ran, free, rfl⟩))
  | pollRelease ps ran cseq => exact .inr (.inr (.inr (.inl ⟨ran, consOwns.mpr (.inr cseq), rfl⟩)))
  | reset ps ran => exact .inr (.inr (.inr (.inr ⟨ran, rfl⟩)))
  | _ => exact absurd rfl changed

/-- Settles O14, by the register moves: the two loads and START need STARTED clear. -/
theorem coefficientsFrozenAfterStart : Obligations.CoefficientsFrozenAfterStart := by
  intro s t started h
  cases step_registerMove h with
  | loadA _ _ _ _ stopped | loadB _ _ _ _ stopped | start _ _ _ stopped => simp [started] at stopped
  | reset ps ran => exact .inr ran
  | _ => exact .inl ⟨rfl, rfl, rfl, started⟩

/-! ### The STATUS view -/

/-- R23: each field of STATUS at its place, with the codes of the enumerations as they are encoded. -/
theorem status_toNat (s : State) :
    s.status.toNat = s.calaLoaded.toNat + 2 * s.calbLoaded.toNat + 4 * s.started.toNat + 8 * s.hasSample.toNat
      + 16 * s.stagePok.toNat + 32 * (lockCode s.lock).toNat + 128 * s.pseq.code.toNat + 1024 * s.cseq.code.toNat := by
  simp only [State.status, toNat_append_eq, flagBit, BitVec.toNat_ofBool, BitVec.toNat_zero]
  omega

/-- R24: the numbers of the lock's values. -/
theorem lockCode_toNat (l : Lock) : (lockCode l).toNat = match l with | .free => 0 | .prod => 1 | .cons => 2 := by
  cases l <;> rfl

/-- R30: the numbers of the producer's stages. -/
theorem pseqCode_toNat (q : PSeq) : q.code.toNat = match q with
    | .idle => 0 | .compt => 1 | .compp => 2 | .comph => 3 | .cmtAcq => 4 | .cmtWr => 5 | .cmtRel => 6 := by
  cases q <;> rfl

/-- R31: the numbers of the consumer's stages. -/
theorem cseqCode_toNat (q : CSeq) : q.code.toNat = match q with | .idle => 0 | .pollCopy => 1 | .pollRel => 2 := by
  cases q <;> rfl

/-- Settles O41: the word is the STATUS view, and each code is the number of its value. -/
theorem statusRead : Obligations.StatusRead := by
  refine ⟨rfl, fun s => ?_⟩
  have fields := status_toNat s
  rw [lockCode_toNat, pseqCode_toNat, cseqCode_toNat] at fields
  exact ⟨s.status, rfl, fields⟩

/-! ### The control invariant -/

/-- R24: a move keeps the lock's owner and the sequencers together. -/
theorem RegisterMove.lockOwned (move : RegisterMove s t) (owned : s.LockOwned) : t.LockOwned := by
  obtain ⟨prod, cons⟩ := owned
  cases move with
  | still | loadA | loadB | start => exact ⟨prod, cons⟩
  | sample _ _ _ pseq | temperature _ _ pseq | pressureAbort _ _ pseq | pressure _ _ _ pseq | publish _ _ pseq =>
    exact ⟨by simp [prod, pseq], cons⟩
  | humidity _ _ pseq => exact ⟨by cases s.stagePok <;> simp [prod, pseq], cons⟩
  | commitAcquire _ _ _ free => exact ⟨by simp, by simpa [free] using cons⟩
  | commitRelease _ _ pseq =>
    have held := prod.mpr (.inr pseq)
    exact ⟨by simp, by simpa [held] using cons⟩
  | pollAcquire _ _ _ free => exact ⟨by simpa [free] using prod, by simp⟩
  | pollStale _ _ cseq | pollFresh _ _ cseq => exact ⟨prod, by simp [cons, cseq]⟩
  | pollRelease _ _ cseq =>
    have held := cons.mpr (.inr cseq)
    exact ⟨by simpa [held] using prod, by simp⟩
  | reset => exact (by decide : State.reset.LockOwned)

/-- R12, R22: a move keeps the order of initialisation. -/
theorem RegisterMove.initOrdered (move : RegisterMove s t) (ordered : s.InitOrdered) : t.InitOrdered := by
  obtain ⟨loaded, running, pending⟩ := ordered
  cases move with
  | still | pollAcquire | pollStale | pollRelease => exact ⟨loaded, running, pending⟩
  | loadA _ _ _ _ stopped | loadB _ _ _ _ stopped => exact ⟨by simp [stopped], running, pending⟩
  | start _ _ _ _ loadedA loadedB => exact ⟨fun _ => ⟨loadedA, loadedB⟩, fun _ => rfl, fun _ => rfl⟩
  | sample _ _ _ _ started => exact ⟨loaded, fun _ => started, pending⟩
  | temperature _ _ pseq | pressureAbort _ _ pseq | pressure _ _ _ pseq | humidity _ _ pseq | commitAcquire _ _ pseq
  | publish _ _ pseq | commitRelease _ _ pseq =>
    have started := running (by simp [pseq])
    exact ⟨loaded, fun _ => started, fun _ => started⟩
  | pollFresh => exact ⟨loaded, running, by simp⟩
  | reset => exact (by decide : State.reset.InitOrdered)

/-- R21, R112: a move keeps the meaning of STAGE_POK. -/
theorem RegisterMove.pokOrdered (move : RegisterMove s t) (ordered : s.PokOrdered) : t.PokOrdered := by
  obtain ⟨clear, committed⟩ := ordered
  cases move with
  | still | loadA | loadB | start | pollAcquire | pollStale | pollFresh | pollRelease => exact ⟨clear, committed⟩
  | sample => exact ⟨fun _ => rfl, by simp⟩
  | temperature _ _ pseq => exact ⟨fun _ => clear (.inl pseq), by simp⟩
  | pressureAbort | pressure | commitRelease => exact ⟨by simp, by simp⟩
  | humidity => cases s.stagePok <;> simp [State.PokOrdered]
  | commitAcquire _ _ pseq => exact ⟨by simp, fun _ => committed (.inl pseq)⟩
  | publish _ _ pseq => exact ⟨by simp, fun _ => committed (.inr (.inl pseq))⟩
  | reset => exact (by decide : State.reset.PokOrdered)

/-- R14: RAW is written by SAMPLE, from a burst, and by RESET. -/
theorem RegisterMove.rawInRange (move : RegisterMove s t) (range : s.RawInRange) : t.RawInRange := by
  cases move with
  | sample b => exact rawOfBurst_range b
  | reset => exact (by decide : State.reset.RawInRange)
  | _ => exact range

/-- R11: the humidity coefficients of block B are in their ranges whatever its bytes. -/
theorem loadBlockB_range (b : Payload 8) (c : Cal) :
    (loadBlockB b c).h.h3.toNat ≤ 255 ∧ (-2048 ≤ (loadBlockB b c).h.h4.toInt ∧ (loadBlockB b c).h.h4.toInt ≤ 2047)
      ∧ (-2048 ≤ (loadBlockB b c).h.h5.toInt ∧ (loadBlockB b c).h.h5.toInt ≤ 2047) := by
  refine ⟨?_, packed12_range _ _, packed12_range _ _⟩
  have := (b[2]).isLt
  simp only [loadBlockB, BitVec.zeroExtend, BitVec.toNat_setWidth]
  omega

/-- R11: H3 to H5 are written by LDCALB and by RESET. -/
theorem RegisterMove.calInRange (move : RegisterMove s t) (range : s.CalInRange) : t.CalInRange := by
  cases move with
  | loadB b => exact loadBlockB_range b s.cal
  | reset => exact (by decide : State.reset.CalInRange)
  | _ => exact range

/-- Settles O53, one conjunct of the invariant at a time. -/
theorem stepKeepsControlInvariant : Obligations.StepKeepsControlInvariant := by
  intro s t ⟨owned, init, pok, raw, cal⟩ h
  have move := step_registerMove h
  exact ⟨move.lockOwned owned, move.initOrdered init, move.pokOrdered pok, move.rawInRange raw, move.calInRange cal⟩

/-! ### The cycle invariant -/

/-- With no stage in progress the cycle invariant asks for nothing. -/
theorem cycleInv_of_idle (idle : s.pseq = .idle) : s.CycleInv := by
  simp [State.CycleInv, idle]

/-- R15, R51, R112: each stage adds its own result and leaves those before it, and no other agent writes what the stages read. -/
theorem RegisterMove.cycleInv (move : RegisterMove s t) (inv : s.CycleInv) : t.CycleInv := by
  obtain ⟨running, clear, temp, press, hum⟩ := inv
  have inProgress {stage : PSeq} (pseq : s.pseq = stage) (busy : stage ≠ .idle) : s.started = true := running (pseq ▸ busy)
  cases move with
  | still | pollAcquire | pollStale | pollFresh | pollRelease => exact ⟨running, clear, temp, press, hum⟩
  | loadA _ _ _ pseq | loadB _ _ _ pseq | start _ _ pseq => exact cycleInv_of_idle pseq
  | commitRelease | reset => exact cycleInv_of_idle rfl
  | sample _ _ _ _ started => exact ⟨fun _ => started, fun _ => rfl, by simp, by simp, by simp⟩
  | temperature _ _ pseq =>
    exact ⟨fun _ => inProgress pseq nofun, fun _ => clear (.inl pseq), fun _ => ⟨rfl, rfl⟩, by simp, by simp⟩
  | pressureAbort _ _ pseq abort =>
    have failed : s.stagePok = false := clear (.inr pseq)
    exact ⟨fun _ => inProgress pseq nofun, by simp, fun _ => temp (.inl pseq),
      fun _ => ⟨by simp [abort, failed], by simp [abort]⟩, by simp⟩
  | pressure _ _ _ pseq result =>
    exact ⟨fun _ => inProgress pseq nofun, by simp, fun _ => temp (.inl pseq), fun _ => ⟨by simp [result], by simp [result]⟩,
      by simp⟩
  | humidity _ _ pseq =>
    cases pok : s.stagePok with
    | false => exact cycleInv_of_idle rfl
    | true =>
      exact ⟨fun _ => inProgress pseq nofun, by simp, fun _ => temp (.inr (.inl pseq)), fun _ => pok ▸ press (.inl pseq),
        fun _ => ⟨rfl, rfl⟩⟩
  | commitAcquire _ _ pseq =>
    exact ⟨fun _ => inProgress pseq nofun, by simp, fun _ => temp (.inr (.inr (.inl pseq))), fun _ => press (.inr (.inl pseq)),
      fun _ => hum (.inl pseq)⟩
  | publish _ _ pseq => exact ⟨fun _ => inProgress pseq nofun, by simp, by simp, by simp, by simp⟩

/-- Settles O54: every step is a register move, and each keeps the invariant. -/
theorem stepKeepsCycleInvariant : Obligations.StepKeepsCycleInvariant :=
  fun _ _ inv h => (step_registerMove h).cycleInv inv

/-! ### The floating-point registers -/

theorem f32Ordinary_of_isNormal {w : Word} (normal : f32IsNormal w = true) : f32Ordinary w = true := by
  simp [f32Ordinary, normal]

/-- R92, R93: a converted integer is positive zero, or normal with an exponent field of 127 to 191. -/
theorem f32OfInt_zero_or_normal {i : Int} (bound : i.natAbs < 2 ^ 64) :
    f32OfInt i = 0#32 ∨ (f32IsNormal (f32OfInt i) = true ∧ 127 ≤ f32Exp (f32OfInt i) ∧ f32Exp (f32OfInt i) ≤ 191) := by
  by_cases zero : i = 0
  · exact .inl (by simp [f32OfInt, zero])
  · obtain ⟨l, n, d, small, pos, lower, upper, -, packed⟩ := f32OfInt_of_nonzero zero bound
    obtain ⟨sigLower, sigUpper⟩ := roundNearestEven_range pos lower upper
    obtain ⟨-, inside, carried⟩ := f32Pack_fields (decide (i < 0)) (l + 127) _ (by omega) sigLower sigUpper
    rw [packed]
    refine .inr ⟨f32Pack_isNormal _ _ _ (by omega) (by omega) sigLower sigUpper, ?_⟩
    rcases sigUpper.lt_or_eq with h | h
    · rw [(inside h).1]
      omega
    · rw [(carried h).1]
      omega

/-- R96: a converted integer divided by a positive constant of moderate size is ordinary. -/
theorem f32Div_f32OfInt_ordinary {i : Int} {c : Word} (bound : i.natAbs < 2 ^ 64) (normal : f32IsNormal c = true)
    (positive : f32Neg c = false) (lower : 100 ≤ f32Exp c) (upper : f32Exp c ≤ 150) :
    f32Ordinary (f32Div (f32OfInt i) c) = true := by
  rcases f32OfInt_zero_or_normal bound with zero | ⟨normalI, lowerI, upperI⟩
  · rw [zero, f32Div_zero normal positive]
    rfl
  · have range : 1 ≤ f32DivExp (f32OfInt i) c ∧ f32DivExp (f32OfInt i) c ≤ 253 := by
      unfold f32DivExp
      split_ifs <;> omega
    obtain ⟨ex, n, d, same, pos, low, high, -, quotient⟩ := f32Div_of_isNormal normalI normal range.1 range.2
    obtain ⟨sigLower, sigUpper⟩ := roundNearestEven_range pos low high
    rw [quotient]
    exact f32Ordinary_of_isNormal (f32Pack_isNormal _ _ _ (by omega) (by omega) sigLower sigUpper)

theorem toInt_natAbs_lt {n : Nat} (v : BitVec n) (narrow : n ≤ 64) : v.toInt.natAbs < 2 ^ 64 := by
  have lower := BitVec.le_toInt v
  have upper := BitVec.toInt_lt (x := v)
  have half : (2 : Int) ^ (n - 1) ≤ 2 ^ 63 := pow_le_pow_right₀ (by norm_num) (by omega)
  omega

theorem tempFloat_ordinary (centi : Word) : f32Ordinary (tempFloat centi) = true :=
  f32Div_f32OfInt_ordinary (toInt_natAbs_lt centi (by omega)) (by decide) (by decide) (by decide) (by decide)

theorem pressFloat_ordinary (p : DWord) : f32Ordinary (pressFloat p) = true :=
  f32Div_f32OfInt_ordinary (toInt_natAbs_lt p le_rfl) (by decide) (by decide) (by decide) (by decide)

theorem humFloat_ordinary (h : Word) : f32Ordinary (humFloat h) = true :=
  f32Div_f32OfInt_ordinary (toInt_natAbs_lt h (by omega)) (by decide) (by decide) (by decide) (by decide)

/-- R132: a pressure, when there is one, is ordinary. -/
theorem compP_press_ordinary {adcP tFine : Word} {c : CalP} {r : PressResult} (result : compP adcP tFine c = some r) :
    f32Ordinary r.press = true := by
  have divisor : pressDivisor tFine c ≠ 0#64 := fun zero => by simp [compP_of_zero zero] at result
  have value := result.symm.trans (compP_of_nonzero divisor)
  rw [Option.some.inj value]
  exact pressFloat_ordinary _

theorem ordinary_iff {x : Triple} :
    x.ordinary = true ↔ f32Ordinary x.p = true ∧ f32Ordinary x.t = true ∧ f32Ordinary x.h = true := by
  simp [Triple.ordinary, and_assoc]

/-- R19, R96: the stages write results of comp_T, comp_P and comp_H, and the commit and the poll copy whole triples. -/
theorem RegisterMove.floatsOrdinary (move : RegisterMove s t) (floats : s.FloatsOrdinary) : t.FloatsOrdinary := by
  obtain ⟨stage, shared, out⟩ := floats
  obtain ⟨stageP, stageT, stageH⟩ := ordinary_iff.mp stage
  cases move with
  | temperature => exact ⟨ordinary_iff.mpr ⟨stageP, tempFloat_ordinary _, stageH⟩, shared, out⟩
  | pressure _ _ _ _ result => exact ⟨ordinary_iff.mpr ⟨compP_press_ordinary result, stageT, stageH⟩, shared, out⟩
  | humidity => exact ⟨ordinary_iff.mpr ⟨stageP, stageT, humFloat_ordinary _⟩, shared, out⟩
  | publish => exact ⟨stage, stage, out⟩
  | pollFresh => exact ⟨stage, shared, shared⟩
  | reset => exact (by decide : State.reset.FloatsOrdinary)
  | _ => exact ⟨stage, shared, out⟩

/-- Settles O56: every step is a register move, and each keeps the patterns ordinary. -/
theorem stepKeepsFloatsOrdinary : Obligations.StepKeepsFloatsOrdinary :=
  fun _ _ floats h => (step_registerMove h).floatsOrdinary floats

end Sys2Proof.Machine
end

section
/-! PROOFS. The family of `20_memory.md`: the lock, the triples behind it, and what each agent leaves to the other. -/

namespace Sys2Proof.Machine

variable {s t : State}

/-! ### Runs -/

/-- A run of `k + 1` steps that answers took a first step and ran on from there. -/
theorem run_succ_inv {k : Nat} (h : core.run (k + 1) s = .next t) : ∃ u, step s = .next u ∧ core.run k u = .next t := by
  cases first : step s with
  | next u => exact ⟨u, rfl, run_succ first ▸ h⟩
  | fault r => nomatch r
  | refused r =>
    have stopped : core.step s = .refused r := first
    simp [Host.Core.run, stopped] at h

/-- What every step keeps, every run keeps. -/
theorem run_keeps {P : State → Prop} (keeps : ∀ u v, P u → step u = .next v → P v) :
    ∀ (k : Nat) (s t : State), P s → core.run k s = .next t → P t
  | 0, _, _, holds, h => by
    cases h
    exact holds
  | k + 1, s, t, holds, h => by
    obtain ⟨u, first, rest⟩ := run_succ_inv h
    exact run_keeps keeps k u t (keeps s u holds first) rest

theorem publishedIn_succ {k : Nat} (h : step s = .next t) :
    publishedIn (k + 1) s = s.publication.toList ++ publishedIn k t := by
  simp only [publishedIn, h]

/-! ### SHARED, HAS_SAMPLE and OUT under a move -/

/-- R50, R151: SHARED is written whole, by CMT_WR from STAGE and by RESET. -/
theorem RegisterMove.shared_cases (move : RegisterMove s t) :
    t.shared = s.shared ∨ t.shared = Triple.zero ∨ t.shared ∈ s.publication := by
  cases move with
  | publish _ ran => exact .inr (.inr (by simp [State.publication, ran]))
  | reset => exact .inr (.inl rfl)
  | _ => exact .inl rfl

/-- R50, R155: OUT is written whole, by POLL_COPY from SHARED and by RESET. -/
theorem RegisterMove.out_cases (move : RegisterMove s t) :
    t.out = s.out ∨ t.out = Triple.outReset ∨ t.out = s.shared := by
  cases move with
  | pollFresh => exact .inr (.inr rfl)
  | reset => exact .inr (.inl rfl)
  | _ => exact .inl rfl

/-- Settles O47, by the register moves: CMT_WR and POLL_COPY stand in their sequencers, and the sequencers say who owns the lock. -/
theorem mutualExclusion : Obligations.MutualExclusion := by
  intro s t ⟨prodOwns, consOwns⟩ h changed
  cases step_registerMove h with
  | publish _ ran pseq => exact .inl ⟨ran, prodOwns.mpr (.inl pseq)⟩
  | pollFresh _ ran cseq => exact .inr (.inl ⟨ran, consOwns.mpr (.inl cseq)⟩)
  | reset _ ran => exact .inr (.inr ran)
  | _ => exact absurd changed (by simp)

/-! ### No torn triple -/

/-- The triple in SHARED after a first step, told from the start of the run. -/
theorem shared_after_step {u : State} (k : Nat) (first : step s = .next u) :
    u.shared = s.shared ∨ u.shared = Triple.zero ∨ u.shared ∈ publishedIn (k + 1) s := by
  rw [publishedIn_succ first]
  obtain same | zero | published := (step_registerMove first).shared_cases
  · exact .inl same
  · exact .inr (.inl zero)
  · exact .inr (.inr (List.mem_append_left _ (Option.mem_toList.mpr published)))

/-- Settles O50, by induction on the length of the run. A copied reset triple of SHARED is the reset triple of OUT by the value that the
model takes for `OUT_RESET` (R36, log entry 7). -/
theorem noTornTriple : Obligations.NoTornTriple := by
  intro k
  induction k with
  | zero =>
    intro s t h
    cases h
    exact ⟨.inl rfl, .inl rfl⟩
  | succ k ih =>
    intro s t h
    obtain ⟨u, first, rest⟩ := run_succ_inv h
    have afterFirst := shared_after_step k first
    have later {x : Triple} (published : x ∈ publishedIn k u) : x ∈ publishedIn (k + 1) s :=
      publishedIn_succ first ▸ List.mem_append_right _ published
    obtain ⟨shared, out⟩ := ih u t rest
    constructor
    · obtain same | zero | published := shared
      · exact same ▸ afterFirst
      · exact .inr (.inl zero)
      · exact .inr (.inr (later published))
    · obtain same | cleared | copied | published := out
      · rw [same]
        obtain kept | cleared | copied := (step_registerMove first).out_cases
        · exact .inl kept
        · exact .inr (.inl cleared)
        · exact .inr (.inr (.inl copied))
      · exact .inr (.inl cleared)
      · rw [copied]
        obtain kept | zero | published := afterFirst
        · exact .inr (.inr (.inl kept))
        · exact .inr (.inl zero)
        · exact .inr (.inr (.inr published))
      · exact .inr (.inr (.inr (later published)))

/-! ### One burst -/

/-- R112: at CMT_WR the cycle invariant makes STAGE the triple of the burst in RAW. -/
theorem tripleOfRaw_at_cmtWr (inv : s.CycleInv) (pseq : s.pseq = .cmtWr) : tripleOfRaw s.raw s.cal = some s.stage := by
  obtain ⟨-, -, temp, press, hum⟩ := inv
  obtain ⟨fine, stageT⟩ := temp (.inr (.inr (.inr pseq)))
  obtain ⟨pok, stageP⟩ := press (.inr (.inr pseq))
  obtain ⟨stageH, done⟩ := hum (.inr pseq)
  obtain ⟨r, result⟩ := Option.isSome_iff_exists.mp (pok.symm.trans done)
  have pressure : s.stage.p = r.press := stageP r result
  rw [State.HumDone, fine] at stageH
  rw [fine] at result
  simp only [tripleOfRaw, result, Option.map_some, ← pressure, ← stageT, ← stageH]

/-- Settles O55: the step runs CMT_WR, which copies STAGE, and STAGE is the triple of the burst in RAW. -/
theorem publishedTripleIsOneBurst : Obligations.PublishedTripleIsOneBurst := by
  intro s t inv ran h
  obtain ⟨_, idle, -⟩ | ⟨i, ps, fetched, ready, effect⟩ := step_registers h
  · simp [ran] at idle
  · obtain rfl : Instr.cmtWr = i := Option.some.inj (ran.symm.trans fetched)
    cases effect
    exact ⟨tripleOfRaw_at_cmtWr inv ready, rfl⟩

/-- Before START only a reset triple is genuine, and that one is genuine in any state. -/
theorem genuine_of_stopped {x : Triple} (genuine : s.Genuine x) (stopped : s.started = false) : t.Genuine x := by
  obtain zero | cleared | ⟨started, -⟩ := genuine
  · exact .inl zero
  · exact .inr (.inl cleared)
  · simp [stopped] at started

/-- R12, R14, R50, R111: a published triple is that of a burst, since counts in range are those of some burst; the coefficients change
only while no burst has been measured. -/
theorem RegisterMove.genuine (move : RegisterMove s t) (inv : s.CycleInv) (range : s.RawInRange) (shared : s.Genuine s.shared)
    (out : s.Genuine s.out) : t.Genuine t.shared ∧ t.Genuine t.out := by
  cases move with
  | loadA _ _ _ _ stopped | loadB _ _ _ _ stopped | start _ _ _ stopped =>
    exact ⟨genuine_of_stopped shared stopped, genuine_of_stopped out stopped⟩
  | publish _ _ pseq =>
    have ⟨running, _⟩ := inv
    obtain ⟨rangeP, rangeT, rangeH⟩ := range
    obtain ⟨b, burst⟩ := exists_burst rangeP rangeT rangeH
    exact ⟨.inr (.inr ⟨running (by simp [pseq]), b, burst ▸ tripleOfRaw_at_cmtWr inv pseq⟩), out⟩
  | pollFresh => exact ⟨shared, shared⟩
  | reset => exact ⟨.inl rfl, .inr (.inl rfl)⟩
  | _ => exact ⟨shared, out⟩

/-- What a run carries along so that its outputs come from one burst: the cycle invariant, the ranges of RAW, and
genuine triples in SHARED and OUT. -/
def State.OneBurst (s : State) : Prop :=
  s.CycleInv ∧ s.RawInRange ∧ s.Genuine s.shared ∧ s.Genuine s.out

theorem RegisterMove.oneBurst (move : RegisterMove s t) (holds : s.OneBurst) : t.OneBurst := by
  obtain ⟨inv, range, shared, out⟩ := holds
  exact ⟨move.cycleInv inv, move.rawInRange range, move.genuine inv range shared out⟩

/-- Settles O51: every step is a register move and keeps the four together, so every run does. -/
theorem outputsComeFromOneBurst : Obligations.OutputsComeFromOneBurst :=
  fun k s t inv range shared out h =>
    run_keeps (P := State.OneBurst) (fun _ _ holds first => (step_registerMove first).oneBurst holds) k s t
      ⟨inv, range, shared, out⟩ h

/-! ### Each agent and its registers -/

/-- The agent whose turn runs what has this encoding (R44, R61, R65). -/
def agentOfEncoding : Encoding → Agent
  | .frame p _ => agentOf p
  | .pseq _ => .producer
  | .cseq _ => .consumer

/-- A turn runs only an instruction of the agent whose turn it is. -/
theorem agentOfEncoding_fetched {a : Agent} {ts : List Agent} {i : Instr} (turns : s.ports.turns = a :: ts)
    (h : s.fetch.1 = some i) : agentOfEncoding (encode i) = a := by
  obtain ⟨b, _, turns', stage, -⟩ | ⟨b, _, _, _, turns', -, frame, -⟩ := fetched_stage h <;>
    obtain ⟨rfl, -⟩ := List.cons.inj (turns.symm.trans turns')
  · cases a with
    | producer => rw [decodePseq_encoding stage, agentOfEncoding]
    | consumer => rw [decodeCseq_encoding stage, agentOfEncoding]
    | host => nomatch stage
  · rw [frame, agentOfEncoding, agentOf_portOf]

theorem State.stream_setStream_other {p q : Port} (bytes : List Byte) (s : State) (other : p ≠ q) :
    (s.setStream q bytes).stream p = s.stream p := by
  cases p <;> cases q <;> simp_all [State.stream, State.setStream]

/-- R61: a turn takes bytes from its own agent's port only. -/
theorem fetch_stream_other {a : Agent} {ts : List Agent} {p : Port} (turns : s.ports.turns = a :: ts) (other : p ≠ portOf a) :
    s.fetch.2.stream p = s.stream p := by
  obtain ⟨none_left, -⟩ | ⟨_, _, _, turns', -, fetched⟩ | ⟨_, _, turns', -, fetched⟩ := fetch_cases s
  · simp [turns] at none_left
  · rw [fetched, State.stream_setTurns]
  · obtain ⟨rfl, rfl⟩ := List.cons.inj (turns.symm.trans turns')
    rw [fetched]
    obtain accepted | ⟨rest, accepted⟩ | ⟨_, _, rest, -, -, accepted⟩ := accept_cases (portOf a) (s.setTurns ts) <;>
      rw [accepted]
    · exact State.stream_setTurns p ts s
    · exact State.stream_setStream_other rest (s.setTurns ts) other
    · exact State.stream_setStream_other rest (s.setTurns ts) other

/-- What running an instruction does to the ports, said once: nothing, or one word returned on the port of its agent. -/
theorem exec_ports {i : Instr} (h : exec i s = .next t) :
    t.ports = s.ports
      ∨ (agentOfEncoding (encode i) = .consumer ∧ ∃ w, t.ports = { s.ports with cpOut := s.ports.cpOut ++ [w] })
      ∨ (agentOfEncoding (encode i) = .host ∧ ∃ w, t.ports = { s.ports with hpOut := s.ports.hpOut ++ [w] }) := by
  cases i with
  | ldcala b => obtain ⟨-, rfl⟩ | ⟨-, rfl⟩ := execLdcala_cases h <;> exact .inl rfl
  | ldcalb b => obtain ⟨-, rfl⟩ | ⟨-, rfl⟩ := execLdcalb_cases h <;> exact .inl rfl
  | start => obtain ⟨-, rfl⟩ | ⟨-, rfl⟩ := execStart_cases h <;> exact .inl rfl
  | sample b => obtain ⟨-, rfl⟩ | ⟨-, rfl⟩ := execSample_cases h <;> exact .inl rfl
  | compp => obtain ⟨-, rfl⟩ | ⟨_, -, rfl⟩ := execCompp_cases h <;> exact .inl rfl
  | cmtAcq => obtain ⟨-, rfl⟩ | ⟨-, rfl⟩ := execCmtAcq_cases h <;> exact .inl rfl
  | poll => obtain ⟨-, rfl⟩ | ⟨-, rfl⟩ := execPoll_cases h <;> exact .inl rfl
  | pollCopy => obtain ⟨-, rfl⟩ | ⟨-, rfl⟩ := execPollCopy_cases h <;> exact .inl rfl
  | rdp | rdt | rdh =>
    cases h
    exact .inr (.inl ⟨rfl, _, rfl⟩)
  | rdstat =>
    cases h
    exact .inr (.inr ⟨rfl, _, rfl⟩)
  | nosamp | reset | compt | comph | cmtWr | cmtRel | pollRel =>
    cases h
    exact .inl rfl

/-- What a step does to the ports, said once: it leaves them as the fetch left them, or returns one word on the port of the agent whose
turn it is. -/
theorem step_ports {a : Agent} {ts : List Agent} (turns : s.ports.turns = a :: ts) (h : step s = .next t) :
    t.ports = s.fetch.2.ports
      ∨ (a = .consumer ∧ ∃ w, t.ports = { s.fetch.2.ports with cpOut := s.fetch.2.ports.cpOut ++ [w] })
      ∨ (a = .host ∧ ∃ w, t.ports = { s.fetch.2.ports with hpOut := s.fetch.2.ports.hpOut ++ [w] }) := by
  obtain ⟨i, ran, effect⟩ | ⟨-, rfl⟩ := step_cases h
  · exact agentOfEncoding_fetched turns ran ▸ exec_ports effect
  · exact .inl rfl

/-- R61: the bytes that wait on the ports of the other agents stay. -/
theorem step_stream_other {a : Agent} {ts : List Agent} {p : Port} (turns : s.ports.turns = a :: ts) (h : step s = .next t)
    (other : p ≠ portOf a) : t.stream p = s.stream p := by
  rw [← fetch_stream_other turns other]
  obtain e | ⟨-, _, e⟩ | ⟨-, _, e⟩ := step_ports turns h <;> simp only [State.stream, e]

/-- R61: a producer turn returns no word. -/
theorem producer_returns_nothing {ts : List Agent} (turns : s.ports.turns = .producer :: ts) (h : step s = .next t) :
    t.ports.cpOut = s.ports.cpOut ∧ t.ports.hpOut = s.ports.hpOut := by
  obtain ⟨ps, fetched, cpOut, hpOut⟩ := fetch_keeps_registers s
  obtain e | ⟨consumer, -⟩ | ⟨host, -⟩ := step_ports turns h
  · rw [e, fetched]
    exact ⟨cpOut, hpOut⟩
  · cases consumer
  · cases host

/-- R51: a consumer turn moves only OUT, HAS_SAMPLE, LOCK and CSEQ. -/
theorem RegisterMove.of_consumer {ts : List Agent} (move : RegisterMove s t) (turns : s.ports.turns = .consumer :: ts) :
    t = { s with out := t.out, hasSample := t.hasSample, lock := t.lock, cseq := t.cseq, ports := t.ports } := by
  cases move with
  | still | pollAcquire | pollStale | pollFresh | pollRelease => rfl
  | loadA _ _ ran | loadB _ _ ran | start _ ran | sample _ _ ran | temperature _ ran | pressureAbort _ ran | pressure _ _ ran
  | humidity _ ran | commitAcquire _ ran | publish _ ran | commitRelease _ ran | reset _ ran =>
    cases agentOfEncoding_fetched turns ran

/-- R51, R18: a producer turn moves neither OUT nor CSEQ. -/
theorem RegisterMove.of_producer {ts : List Agent} (move : RegisterMove s t) (turns : s.ports.turns = .producer :: ts) :
    t.out = s.out ∧ t.cseq = s.cseq := by
  cases move with
  | pollAcquire _ ran | pollStale _ ran | pollFresh _ ran | pollRelease _ ran | reset _ ran =>
    cases agentOfEncoding_fetched turns ran
  | _ => exact ⟨rfl, rfl⟩

/-- Settles O48: the registers by the moves of each agent, the ports by what a step does to them. -/
theorem agentsKeepToTheirRegisters : Obligations.AgentsKeepToTheirRegisters := by
  intro s t ts h
  have move := step_registerMove h
  constructor
  · intro turns
    have pp : t.stream .pp = s.stream .pp := step_stream_other turns h (by decide)
    have hp : t.stream .hp = s.stream .hp := step_stream_other turns h (by decide)
    rw [move.of_consumer turns]
    exact ⟨rfl, rfl, rfl, rfl, rfl, rfl, rfl, rfl, rfl, rfl, pp, hp⟩
  · intro turns
    have cp : t.stream .cp = s.stream .cp := step_stream_other turns h (by decide)
    have hp : t.stream .hp = s.stream .hp := step_stream_other turns h (by decide)
    obtain ⟨out, cseq⟩ := move.of_producer turns
    obtain ⟨cpOut, hpOut⟩ := producer_returns_nothing turns h
    exact ⟨out, cseq, cpOut, hpOut, cp, hp⟩

/-! ### The end of a wait -/

/-- R65: a turn of an agent with a stage in progress runs that stage. -/
theorem step_of_stage {a : Agent} {ts : List Agent} {i : Instr} (turns : s.ports.turns = a :: ts)
    (stage : s.stageInProgress a = some i) : step s = exec i (s.setTurns ts) := by
  have same : (s.setTurns ts).stageInProgress a = some i := by cases a <;> exact stage
  simp only [step, State.fetch, turns, State.fetchTurn, same]

/-- R155: the consumer's turn at POLL_COPY. -/
theorem step_pollCopy {ts : List Agent} (turns : s.ports.turns = .consumer :: ts) (cseq : s.cseq = .pollCopy) :
    step s = .next ((s.setTurns ts).takeSample.setCseq .pollRel) :=
  step_of_stage (i := .pollCopy) turns (by simp [State.stageInProgress, cseq])

/-- R156: the consumer's turn at POLL_REL. -/
theorem step_pollRel {ts : List Agent} (turns : s.ports.turns = .consumer :: ts) (cseq : s.cseq = .pollRel) :
    step s = .next (((s.setTurns ts).setLock .free).setCseq .idle) :=
  step_of_stage (i := .pollRel) turns (by simp [State.stageInProgress, cseq])

/-- R150: the producer's turn at CMT_ACQ with the lock free. -/
theorem step_cmtAcq_free {ts : List Agent} (turns : s.ports.turns = .producer :: ts) (pseq : s.pseq = .cmtAcq)
    (free : s.lock = .free) : step s = .next (((s.setTurns ts).setLock .prod).setPseq .cmtWr) := by
  have got : (s.setTurns ts).tryAcquire .prod = some ((s.setTurns ts).setLock .prod) := tryAcquire_eq_some.mpr ⟨free, rfl⟩
  rw [step_of_stage (i := .cmtAcq) turns (by simp [State.stageInProgress, pseq])]
  simp only [exec, execCmtAcq, got]

/-- R56: from POLL_REL the wait ends after one consumer turn and one producer turn. -/
theorem wait_ends_from_pollRel {ts : List Agent} (pseq : s.pseq = .cmtAcq) (cseq : s.cseq = .pollRel)
    (turns : s.ports.turns = .consumer :: .producer :: ts) :
    ∃ t, core.run 2 s = .next t ∧ t.lock = .prod ∧ t.pseq = .cmtWr := by
  rw [run_succ (step_pollRel turns cseq), run_succ (step_cmtAcq_free rfl (by simpa using pseq) rfl)]
  exact ⟨_, rfl, rfl, rfl⟩

/-- Settles O39: POLL_COPY leads to POLL_REL, from where the wait ends. -/
theorem producerWaitEnds : Obligations.ProducerWaitEnds := by
  intro s ts pseq _
  constructor
  · intro cseq turns
    rw [run_succ (step_pollCopy turns cseq)]
    exact wait_ends_from_pollRel (ts := ts) (by simpa using pseq) rfl (by simp)
  · exact fun cseq turns => wait_ends_from_pollRel pseq cseq turns

end Sys2Proof.Machine
end

section
/-! PROOFS. The family of `30_encoding.md`: the decoder inverts the encoder, and a step runs what it decodes or drops what it refuses. -/

namespace Sys2Proof

/-! ### Decode and encode -/

/-- R62: the frame of a command at the front of its port's bytes is found, whatever follows it. -/
theorem parseFrame_encoding {i : Instr} {p : Port} {front : List Byte} (h : encode i = .frame p front) (rest : List Byte) :
    parseFrame p (front ++ rest) = .command i rest := by
  obtain ⟨o, body, -, rfl, rfl, whole, found⟩ := encode_frame h
  exact parseFrame_of_opcode o body rest i whole found

/-- A frame decodes to what the parser finds in it with nothing left over. -/
theorem decode_frame_eq_some {p : Port} {bytes : List Byte} {i : Instr} :
    decode (.frame p bytes) = some i ↔ parseFrame p bytes = .command i [] := by
  simp only [decode]
  split <;> simp_all

/-- R63: a frame decodes to an instruction exactly when it is that instruction's encoding. -/
theorem decode_frame_iff {p : Port} {bytes : List Byte} {i : Instr} :
    decode (.frame p bytes) = some i ↔ encode i = .frame p bytes := by
  rw [decode_frame_eq_some]
  constructor
  · intro found
    obtain ⟨front, encoded, rfl⟩ := parseFrame_command found
    rwa [List.append_nil]
  · intro encoded
    simpa using parseFrame_encoding encoded []

/-- R65: a PSEQ code selects the stage whose encoding it is. -/
theorem decodePseq_eq_some {c : BitVec 3} {i : Instr} : decodePseq c = some i ↔ encode i = .pseq c := by
  refine ⟨Machine.decodePseq_encoding, fun encoded => ?_⟩
  cases i <;> cases encoded <;> rfl

/-- R65: a CSEQ code selects the stage whose encoding it is. -/
theorem decodeCseq_eq_some {c : BitVec 2} {i : Instr} : decodeCseq c = some i ↔ encode i = .cseq c := by
  refine ⟨Machine.decodeCseq_encoding, fun encoded => ?_⟩
  cases i <;> cases encoded <;> rfl

/-- The decoder inverts the encoder, and reads nothing else. -/
theorem decode_eq_some_iff {e : Encoding} {i : Instr} : decode e = some i ↔ encode i = e := by
  cases e with
  | frame p bytes => exact decode_frame_iff
  | pseq c => exact decodePseq_eq_some
  | cseq c => exact decodeCseq_eq_some

/-- Settles O1: what is encoded is read back. -/
theorem decodeAfterEncode : Obligations.DecodeAfterEncode :=
  fun _ => decode_eq_some_iff.mpr rfl

/-- Settles O2: what is read is the encoding it came from. -/
theorem encodeAfterDecode : Obligations.EncodeAfterDecode :=
  fun _ _ found => (decode_eq_some_iff.mp found).symm

/-- Settles O5: each word is the encoding of its instruction, as R63 and R65 write it. -/
theorem writtenWordsDecode : Obligations.WrittenWordsDecode := by
  refine ⟨?_, ?_, ?_, ?_, ?_, ?_, ?_, ?_, ?_, ?_, ?_⟩ <;> exact decode_eq_some_iff.mpr rfl

/-! ### The well-formedness checks -/

theorem payloadLengthOf_byte (o : Opcode) : payloadLengthOf o.byte = o.payloadLength := by
  simp [payloadLengthOf]

/-- R62, R63: a frame passes the checks exactly when it is a listed opcode, on its port, with its payload length. -/
theorem frame_wellFormed_iff {p : Port} {bytes : List Byte} :
    (Encoding.frame p bytes).wellFormed = true ↔
      ∃ (o : Opcode) (body : List Byte), bytes = o.byte :: body ∧ o.port = p ∧ body.length = o.payloadLength := by
  constructor
  · intro passes
    cases bytes with
    | nil => cases passes
    | cons op body =>
      simp only [Encoding.wellFormed, opcodeListed, opcodeOnPort, frameLengthRight, Bool.and_eq_true, beq_iff_eq] at passes
      obtain ⟨⟨listed, onPort⟩, whole⟩ := passes
      obtain ⟨o, row⟩ := Option.isSome_iff_exists.mp listed
      obtain rfl := ofByte_eq_some row
      exact ⟨o, body, rfl, by simpa using onPort, payloadLengthOf_byte o ▸ whole⟩
  · rintro ⟨o, body, rfl, rfl, whole⟩
    simp [Encoding.wellFormed, opcodeListed, opcodeOnPort, frameLengthRight, payloadLengthOf_byte, whole]

/-- R62, R63, R67: a frame passes the checks exactly when it is the encoding of some command. -/
theorem frame_wellFormed_iff_encoding {p : Port} {bytes : List Byte} :
    (Encoding.frame p bytes).wellFormed = true ↔ ∃ i, encode i = .frame p bytes := by
  rw [frame_wellFormed_iff]
  constructor
  · rintro ⟨o, body, rfl, rfl, whole⟩
    obtain ⟨i, found⟩ := Option.isSome_iff_exists.mp (commandOf_isSome whole)
    exact ⟨i, commandOf_encoding found whole⟩
  · rintro ⟨i, encoded⟩
    obtain ⟨o, body, -, rfl, rfl, whole, -⟩ := encode_frame encoded
    exact ⟨o, body, rfl, rfl, whole⟩

/-- R65: the codes that select a producer stage are 1 to 6. -/
theorem decodePseq_isSome (c : BitVec 3) : (decodePseq c).isSome = pseqCodeSelects c := by
  revert c
  decide

/-- R65: the codes that select a consumer stage are 1 and 2. -/
theorem decodeCseq_isSome (c : BitVec 2) : (decodeCseq c).isSome = cseqCodeSelects c := by
  revert c
  decide

/-- Settles O3: a frame that passes the checks is the encoding of a command, and the decoder reads exactly those; the sequencers' codes
are finitely many. -/
theorem decodableIffWellFormed : Obligations.DecodableIffWellFormed := by
  intro e
  cases e with
  | frame p bytes =>
    rw [Bool.eq_iff_iff, Option.isSome_iff_exists, frame_wellFormed_iff_encoding]
    exact exists_congr fun _ => decode_frame_iff
  | pseq c => exact decodePseq_isSome c
  | cseq c => exact decodeCseq_isSome c

/-! ### Frames at the front of a port's bytes -/

/-- Settles O4: a frame cut short is empty, or is the opcode with too few payload bytes. -/
theorem portTakesWholeFrames : Obligations.PortTakesWholeFrames := by
  intro i p bytes rest encoded
  refine ⟨parseFrame_encoding encoded rest, fun n proper => ?_⟩
  obtain ⟨o, body, -, rfl, rfl, whole, -⟩ := encode_frame encoded
  cases n with
  | zero => rfl
  | succ n =>
    rw [List.length_cons] at proper
    exact parseFrame_short o.port o (body.take n) (by rw [List.length_take]; omega)

/-- R67: a reserved opcode is taken as a frame of one byte. -/
theorem parseFrame_reserved (p : Port) {op : Byte} (tail : List Byte) (reserved : ∀ o : Opcode, o.byte ≠ op) :
    parseFrame p (op :: tail) = .reservedOpcode tail := by
  simp [parseFrame, ofByte_eq_none reserved]

/-- R67: an opcode listed for another port is taken with its payload (log entry 3). -/
theorem parseFrame_wrongPort {p : Port} {o : Opcode} {body : List Byte} (rest : List Byte) (other : o.port ≠ p)
    (whole : body.length = o.payloadLength) : parseFrame p (o.byte :: (body ++ rest)) = .wrongPort rest := by
  simp [parseFrame, other, ← whole]

end Sys2Proof

namespace Sys2Proof.Machine

variable {s : State} {p : Port} {ts : List Agent}

/-! ### A turn with the port's sequencer idle -/

/-- R65: the turns to come have no part in what a sequencer selects. -/
theorem stageInProgress_setTurns (a : Agent) (ts : List Agent) (s : State) :
    (s.setTurns ts).stageInProgress a = s.stageInProgress a := by
  cases a <;> rfl

/-- R66: an agent whose port accepts has no stage in progress. -/
theorem stageInProgress_of_portIdle (idle : s.portIdle p = true) : s.stageInProgress (agentOf p) = none := by
  cases p with
  | pp =>
    have pseq : s.pseq = .idle := by simpa [State.portIdle] using idle
    simp [agentOf, State.stageInProgress, pseq]
  | cp =>
    have cseq : s.cseq = .idle := by simpa [State.portIdle] using idle
    simp [agentOf, State.stageInProgress, cseq]
  | hp => rfl

/-- R66: a turn at an idle port accepts on that port. -/
theorem fetch_of_portIdle (turns : s.ports.turns = agentOf p :: ts) (idle : s.portIdle p = true) :
    s.fetch = (s.setTurns ts).accept p := by
  simp only [State.fetch, turns, State.fetchTurn, stageInProgress_setTurns, stageInProgress_of_portIdle idle, portOf_agentOf]

/-- R66: a command at the front of an idle port is run without its frame and the turn. -/
theorem step_of_command {i : Instr} {rest : List Byte} (turns : s.ports.turns = agentOf p :: ts) (idle : s.portIdle p = true)
    (found : parseFrame p (s.stream p) = .command i rest) : step s = exec i ((s.setTurns ts).setStream p rest) := by
  simp only [step, fetch_of_portIdle turns idle, State.accept, State.stream_setTurns, found]

/-- R67: an illegal frame at the front of an idle port only leaves the port. -/
theorem step_of_illegal {rest : List Byte} (turns : s.ports.turns = agentOf p :: ts) (idle : s.portIdle p = true)
    (illegal : parseFrame p (s.stream p) = .reservedOpcode rest ∨ parseFrame p (s.stream p) = .wrongPort rest) :
    step s = .next ((s.setTurns ts).setStream p rest) := by
  obtain found | found := illegal <;>
    simp only [step, fetch_of_portIdle turns idle, State.accept, State.stream_setTurns, found]

/-- Settles O6: the sequencers' codes by the stage in progress, the frame by what the port accepts. -/
theorem stepRunsDecodedInstruction : Obligations.StepRunsDecodedInstruction := by
  refine ⟨fun _ _ _ turns stage => step_of_stage turns stage, fun _ _ _ turns stage => step_of_stage turns stage, ?_⟩
  intro s p ts i bytes rest turns idle stream found
  exact step_of_command turns idle (stream ▸ parseFrame_encoding (decode_frame_iff.mp found) rest)

/-! ### Refused commands -/

/-- R100, R182: LDCALA is ignored after START. -/
theorem execLdcala_started (b : Payload 26) (started : s.started = true) : execLdcala b s = .next s := by
  rw [execLdcala, if_pos started, ignored]

/-- R101, R182: LDCALB is ignored after START. -/
theorem execLdcalb_started (b : Payload 8) (started : s.started = true) : execLdcalb b s = .next s := by
  rw [execLdcalb, if_pos started, ignored]

/-- R102, R182: START is ignored when it has taken effect or a block is missing. -/
theorem execStart_refused (refused : s.started = true ∨ s.calaLoaded = false ∨ s.calbLoaded = false) :
    execStart s = .next s := by
  have may_not : s.mayStart = false := by
    obtain h | h | h := refused <;> simp [State.mayStart, h]
  simp [execStart, may_not, ignored]

/-- R110, R182: SAMPLE is ignored before START. -/
theorem execSample_stopped (b : Payload 8) (stopped : s.started = false) : execSample b s = .next s := by
  simp [execSample, stopped, ignored]

/-- Settles O8: the opcode of the frame is listed, and then for another port, or it is reserved; the refusals are the commands' own
guards. -/
theorem illegalAndRefusedCommandsAreIgnored : Obligations.IllegalAndRefusedCommandsAreIgnored := by
  refine ⟨?_, fun _ b started => execLdcala_started b started, fun _ b started => execLdcalb_started b started,
    fun _ refused => execStart_refused refused, fun _ b stopped => execSample_stopped b stopped⟩
  intro s p ts op body rest turns idle stream listed reserved
  by_cases row : ∃ o : Opcode, o.byte = op
  · obtain ⟨o, rfl⟩ := row
    obtain ⟨other, whole⟩ := listed o rfl
    exact step_of_illegal turns idle (.inr (stream ▸ parseFrame_wrongPort rest other whole))
  · have unlisted : ∀ o : Opcode, o.byte ≠ op := not_exists.mp row
    obtain rfl := reserved unlisted
    exact step_of_illegal turns idle (.inl (stream ▸ parseFrame_reserved p rest unlisted))

/-! ### A turn with a stage in progress -/

/-- R60, R65: the instructions without an opcode are those that are not encoded as frames. -/
theorem opcode_eq_none_iff {i : Instr} : i.opcode = none ↔ ∀ p bytes, encode i ≠ .frame p bytes := by
  cases i <;> simp [Instr.opcode, encode]

/-- R66: an agent whose port does not accept has a stage in progress, whose encoding is the code in its sequencer. -/
theorem stageInProgress_of_portBusy (busy : s.portIdle p = false) :
    ∃ i, s.stageInProgress (agentOf p) = some i
      ∧ ((p = .pp ∧ encode i = .pseq s.pseq.code) ∨ (p = .cp ∧ encode i = .cseq s.cseq.code)) := by
  cases p with
  | pp =>
    have selects : (decodePseq s.pseq.code).isSome = true := by
      cases pseq : s.pseq <;> simp_all [State.portIdle]
    obtain ⟨i, stage⟩ := Option.isSome_iff_exists.mp selects
    exact ⟨i, stage, .inl ⟨rfl, decodePseq_encoding stage⟩⟩
  | cp =>
    have selects : (decodeCseq s.cseq.code).isSome = true := by
      cases cseq : s.cseq <;> simp_all [State.portIdle]
    obtain ⟨i, stage⟩ := Option.isSome_iff_exists.mp selects
    exact ⟨i, stage, .inr ⟨rfl, decodeCseq_encoding stage⟩⟩
  | hp => cases busy

/-- R65: a turn of an agent with a stage in progress selects that stage and takes nothing from its port. -/
theorem fetch_of_stage {a : Agent} {i : Instr} (turns : s.ports.turns = a :: ts) (stage : s.stageInProgress a = some i) :
    s.fetch = (some i, s.setTurns ts) := by
  simp only [State.fetch, turns, State.fetchTurn, stageInProgress_setTurns, stage]

/-- R65: every stage answers a next state, and leaves the ports as they are. -/
theorem exec_stage_keeps_ports {i : Instr} (stage : i.opcode = none) (s : State) :
    ∃ t, exec i s = .next t ∧ t.ports = s.ports := by
  cases i with
  | ldcala | ldcalb | start | sample | nosamp | poll | rdp | rdt | rdh | rdstat | reset => cases stage
  | compt | comph | cmtWr | cmtRel | pollRel => exact ⟨_, rfl, rfl⟩
  | pollCopy => exact ⟨_, rfl, s.takeSample_ports⟩
  | compp =>
    cases result : compP s.raw.p s.tFine s.cal.p with
    | none => exact ⟨_, execCompp_abort result, rfl⟩
    | some r => exact ⟨_, execCompp_success result, rfl⟩
  | cmtAcq =>
    simp only [exec, execCmtAcq]
    split
    · next got =>
      obtain ⟨-, rfl⟩ := tryAcquire_eq_some.mp got
      exact ⟨_, rfl, rfl⟩
    · exact ⟨_, rfl, rfl⟩

/-- Settles O7: the port is busy, so a stage is selected, and no stage touches a port. -/
theorem earlyCommandWaits : Obligations.EarlyCommandWaits := by
  intro s p ts turns busy
  obtain ⟨i, stage, encoded⟩ := stageInProgress_of_portBusy busy
  have no_opcode : i.opcode = none := opcode_eq_none_iff.mpr fun _ _ frame => by simp [frame] at encoded
  obtain ⟨t, effect, ports⟩ := exec_stage_keeps_ports no_opcode (s.setTurns ts)
  have runs := step_of_stage turns stage
  refine ⟨i, t, encoded, by rw [fetch_of_stage turns stage], runs, runs.trans effect, ?_, by rw [ports]; rfl⟩
  calc t.stream p = (s.setTurns ts).stream p := by simp only [State.stream, ports]
    _ = s.stream p := State.stream_setTurns p ts s

end Sys2Proof.Machine
end

section
/-! PROOFS. The family of `40_numerics.md`: the integer primitives as exact integers, and the binary32 conversion and division as the
nearest value. -/

namespace Sys2Proof.Machine

/-! ### The integer primitives -/

/-- `sext_N` is the balanced remainder modulo `2^N`. -/
theorem sextInt_eq_bmod (n : Nat) (v : Int) : sextInt (n + 1) v = v.bmod (2 ^ (n + 1)) := by
  have double : (2 : Int) ^ (n + 1) = 2 * 2 ^ n := by ring
  rw [sextInt, Int.bmod_def, Nat.add_sub_cancel]
  push_cast
  split_ifs <;> omega

theorem wrap32_toInt (x : Int) : (wrap32 x).toInt = sextInt 32 x :=
  (BitVec.toInt_ofInt x).trans (sextInt_eq_bmod 31 x).symm

theorem wrap64_toInt (x : Int) : (wrap64 x).toInt = sextInt 64 x :=
  (BitVec.toInt_ofInt x).trans (sextInt_eq_bmod 63 x).symm

/-- Settles O25: each of these primitives is the wrap of the exact integer. -/
theorem integerPrimitivesWrap : Obligations.IntegerPrimitivesWrap :=
  ⟨fun _ _ => ⟨wrap32_toInt _, wrap32_toInt _, wrap32_toInt _⟩, fun _ _ _ => wrap32_toInt _,
    fun _ _ => ⟨wrap64_toInt _, wrap64_toInt _, wrap64_toInt _⟩, fun _ _ _ => wrap64_toInt _⟩

theorem fdiv_two_pow_eq_floor (a : Int) (n : Nat) : a.fdiv (2 ^ n) = ⌊(a : ℚ) / 2 ^ n⌋ := by
  have floor := Rat.floor_intCast_div_natCast a (2 ^ n)
  rw [Int.fdiv_eq_ediv_of_nonneg _ (by positivity)]
  exact_mod_cast floor.symm

/-- Settles O26: nothing wraps, and a floor division by `2^n` is the floor of the rational quotient. -/
theorem rightShiftsFloor : Obligations.RightShiftsFloor :=
  ⟨fun a n _ => (asr32_toInt a n).trans (fdiv_two_pow_eq_floor _ n),
    fun a n _ => (asr64_toInt a n).trans (fdiv_two_pow_eq_floor _ n)⟩

/-- R89: the quotient of a non-zero divisor is the wrap of the truncated quotient. -/
theorem div64_toInt (a : DWord) {b : DWord} (nonzero : b ≠ 0#64) : (div64 a b).toInt = sextInt 64 (a.toInt.tdiv b.toInt) := by
  rw [div64, if_neg nonzero, wrap64_toInt, sign_mul_natAbs_div]

/-- R89: outside the corner nothing wraps. -/
theorem div64_toInt_of_not_corner {a b : DWord} (nonzero : b ≠ 0#64) (inside : ¬(a.toInt = -2 ^ 63 ∧ b.toInt = -1)) :
    (div64 a b).toInt = a.toInt.tdiv b.toInt := by
  rw [div64_eq a b nonzero]
  refine BitVec.toInt_sdiv_of_ne_or_ne a b (not_and_or.mp ?_)
  rintro ⟨rfl, rfl⟩
  exact inside (by decide)

/-- R89: the corner `-2^63 / -1` wraps to `-2^63`. -/
theorem div64_toInt_of_corner {a b : DWord} (smallest : a.toInt = -2 ^ 63) (minusOne : b.toInt = -1) :
    (div64 a b).toInt = -2 ^ 63 := by
  have nonzero : b ≠ 0#64 := by
    rintro rfl
    exact absurd minusOne (by decide)
  rw [div64_toInt a nonzero, smallest, minusOne]
  decide

/-- Settles O27: the truncated quotient, wrapped, with the corner told apart. -/
theorem divisionTruncates : Obligations.DivisionTruncates :=
  ⟨fun a _ => div64_toInt a, fun _ _ => div64_toInt_of_not_corner, fun _ _ => div64_toInt_of_corner⟩

/-! ### Conversion to binary32 -/

theorem f32Value_zero : f32Value 0#32 = 0 :=
  f32Value_of_not_isNormal (by decide)

theorem f32Nearest_of_value_eq {w : Word} {x : ℚ} (value : f32Value w = x) : f32Nearest w x := by
  subst value
  intro v _
  rw [sub_self, abs_zero]
  exact ⟨abs_nonneg _, fun equal ne => absurd (sub_eq_zero.mp (abs_eq_zero.mp equal.symm)) ne⟩

theorem intCast_eq_f32Sign_mul_natAbs (i : Int) : (i : ℚ) = f32Sign (decide (i < 0)) * i.natAbs := by
  rcases lt_or_ge i 0 with negative | positive
  · have magnitude : (i.natAbs : Int) = -i := by omega
    rw [f32Sign, decide_eq_true negative, if_pos rfl, ← Int.cast_natCast, magnitude]
    push_cast
    ring
  · have magnitude : (i.natAbs : Int) = i := by omega
    rw [f32Sign, decide_eq_false (by omega), if_neg (by simp), ← Int.cast_natCast, magnitude, one_mul]

/-- R92, R93: the significand of a non-zero integer is in range, also when rounding carried it to `2^24`. -/
theorem f32SigOfNat_range {m : Nat} (nonzero : m ≠ 0) : 2 ^ 23 ≤ f32SigOfNat m m.log2 ∧ f32SigOfNat m m.log2 ≤ 2 ^ 24 := by
  obtain ⟨lower, upper⟩ := log2_significand_range nonzero
  rw [f32SigOfNat_eq]
  exact roundNearestEven_range (by positivity) lower upper

/-- R92, R93: an integer below `2^24` fills its significand by a left shift, with no rounding. -/
theorem f32Value_f32OfInt_exact {i : Int} (small : i.natAbs < 2 ^ 24) : f32Value (f32OfInt i) = i := by
  by_cases zero : i = 0
  · rw [zero, f32OfInt, if_pos rfl, f32Value_zero, Int.cast_zero]
  · have nonzero : i.natAbs ≠ 0 := Int.natAbs_ne_zero.mpr zero
    have leading : i.natAbs.log2 ≤ 23 := Nat.le_of_lt_succ ((Nat.log2_lt nonzero).mpr small)
    obtain ⟨sigLower, sigUpper⟩ := f32SigOfNat_range nonzero
    have unshift : (2 : ℚ) ^ (23 - i.natAbs.log2) * 2 ^ (((i.natAbs.log2 + 127 : Nat) : ℤ) - 150) = 1 := by
      rw [← zpow_natCast, ← zpow_add₀ two_ne_zero, Nat.cast_sub leading]
      push_cast
      rw [show (23 : ℤ) - i.natAbs.log2 + (i.natAbs.log2 + 127 - 150) = 0 by ring, zpow_zero]
    calc f32Value (f32OfInt i)
        = f32Sign (decide (i < 0)) * (f32SigOfNat i.natAbs i.natAbs.log2 : ℚ)
            * 2 ^ (((i.natAbs.log2 + 127 : Nat) : ℤ) - 150) := by
          rw [f32OfInt, if_neg zero, f32Value_f32Pack _ _ _ (by omega) (by omega) sigLower sigUpper]
      _ = f32Sign (decide (i < 0)) * i.natAbs
            * (2 ^ (23 - i.natAbs.log2) * 2 ^ (((i.natAbs.log2 + 127 : Nat) : ℤ) - 150)) := by
          rw [f32SigOfNat, if_pos leading]
          push_cast
          ring
      _ = i := by rw [unshift, mul_one, ← intCast_eq_f32Sign_mul_natAbs]

/-- R92, R93: a conversion is one rounding of the integer. -/
theorem f32OfInt_nearest {i : Int} (bound : i.natAbs < 2 ^ 64) : f32Nearest (f32OfInt i) i := by
  by_cases zero : i = 0
  · exact f32Nearest_of_value_eq (f32Value_f32OfInt_exact (by simp [zero]))
  · obtain ⟨l, n, d, small, pos, lower, upper, value, packed⟩ := f32OfInt_of_nonzero zero bound
    rw [packed, value]
    exact f32Nearest_of_rounded _ _ n d pos (by omega) (by omega) lower upper

/-- Settles O28: below `2^24` no bit is lost. -/
theorem smallIntegersConvertExactly : Obligations.SmallIntegersConvertExactly :=
  ⟨fun _ => f32Value_f32OfInt_exact, fun _ => f32Value_f32OfInt_exact, rfl, rfl⟩

/-- Settles O29: both conversions are one rounding of an integer below `2^64`. -/
theorem conversionIsNearest : Obligations.ConversionIsNearest :=
  ⟨fun i => f32OfInt_nearest (toInt_natAbs_lt i (by omega)), fun i => f32OfInt_nearest (toInt_natAbs_lt i le_rfl)⟩

/-! ### Division of a converted integer -/

/-- R94: the exponent of a quotient is that of the exponents' difference, or one less. -/
theorem f32DivExp_bounds (a b : Word) :
    (f32Exp a : Int) - f32Exp b + 126 ≤ f32DivExp a b ∧ f32DivExp a b ≤ (f32Exp a : Int) - f32Exp b + 127 := by
  unfold f32DivExp
  split_ifs <;> omega

/-- R94: a quotient with its exponent in range is one rounding of the exact quotient. -/
theorem f32Div_nearest {a b : Word} (normalA : f32IsNormal a = true) (normalB : f32IsNormal b = true) (lower : 1 ≤ f32DivExp a b)
    (upper : f32DivExp a b ≤ 253) : f32Nearest (f32Div a b) (f32Value a / f32Value b) := by
  obtain ⟨ex, n, d, same, pos, sigLower, sigUpper, value, packed⟩ := f32Div_of_isNormal normalA normalB lower upper
  rw [value, packed]
  exact f32Nearest_of_rounded _ ex n d pos (by omega) (by omega) sigLower sigUpper

section
variable {i : Int} {c : Word} (bound : i.natAbs < 2 ^ 64) (normal : f32IsNormal c = true) (positive : f32Neg c = false)
  (lower : 100 ≤ f32Exp c) (upper : f32Exp c ≤ 150)
include bound normal positive lower upper

/-- R94: the quotient of a converted integer and a positive constant of moderate size is the nearest value. -/
theorem f32Div_f32OfInt_nearest : f32Nearest (f32Div (f32OfInt i) c) (f32Value (f32OfInt i) / f32Value c) := by
  rcases f32OfInt_zero_or_normal bound with zero | ⟨normalI, lowerI, upperI⟩
  · rw [zero, f32Div_zero normal positive]
    exact f32Nearest_of_value_eq (by rw [f32Value_zero, zero_div])
  · obtain ⟨expLower, expUpper⟩ := f32DivExp_bounds (f32OfInt i) c
    exact f32Div_nearest normalI normal (by omega) (by omega)

/-- R94: by a power of two the quotient only changes its exponent, so it is exact. -/
theorem f32Div_f32OfInt_exact {k : Nat} (power : f32Value c = 2 ^ k) (small : k ≤ 100) :
    f32Value (f32Div (f32OfInt i) c) = f32Value (f32OfInt i) / 2 ^ k := by
  rcases f32OfInt_zero_or_normal bound with zero | ⟨normalI, lowerI, upperI⟩
  · rw [zero, f32Div_zero normal positive, f32Value_zero, zero_div]
  · have nearest := f32Div_f32OfInt_nearest bound normal positive lower upper
    rw [power] at nearest
    obtain ⟨sigLower, sigUpper⟩ := f32Sig_range (f32OfInt i)
    exact f32Nearest_exact nearest (f32Ordinary_of_isNormal (f32Pack_isNormal _ _ _ (by omega) (by omega) sigLower sigUpper.le))
      (f32Value_rescaled k normalI (by omega) (by omega))

end

theorem f32Value_hundred : f32Value 0x42C80000#32 = 100 := by
  rw [show 0x42C80000#32 = f32Pack false 133 (100 * 2 ^ 17) by decide, f32Value_f32Pack] <;> norm_num [f32Sign]

theorem f32Value_twoFiftySix : f32Value 0x43800000#32 = 2 ^ 8 := by
  rw [show 0x43800000#32 = f32Pack false 135 (2 ^ 23) by decide, f32Value_f32Pack] <;> norm_num [f32Sign]

theorem f32Value_tenTwentyFour : f32Value 0x44800000#32 = 2 ^ 10 := by
  rw [show 0x44800000#32 = f32Pack false 137 (2 ^ 23) by decide, f32Value_f32Pack] <;> norm_num [f32Sign]

/-- R94, R95: the three divisions that the stages make. -/
theorem f32OfInt_div_constants {i : Int} (bound : i.natAbs < 2 ^ 64) :
    f32Value (f32Div (f32OfInt i) 0x43800000#32) = f32Value (f32OfInt i) / 256
      ∧ f32Value (f32Div (f32OfInt i) 0x44800000#32) = f32Value (f32OfInt i) / 1024
      ∧ f32Nearest (f32Div (f32OfInt i) 0x42C80000#32) (f32Value (f32OfInt i) / 100) := by
  have by256 := f32Div_f32OfInt_exact bound (by decide) (by decide) (by decide) (by decide) f32Value_twoFiftySix (by omega)
  have by1024 := f32Div_f32OfInt_exact bound (by decide) (by decide) (by decide) (by decide) f32Value_tenTwentyFour (by omega)
  have by100 := f32Div_f32OfInt_nearest (c := 0x42C80000#32) bound (by decide) (by decide) (by decide) (by decide)
  rw [f32Value_hundred] at by100
  exact ⟨by256.trans (by norm_num), by1024.trans (by norm_num), by100⟩

/-- Settles O30: both conversions are of an integer below `2^64`. -/
theorem divisionByConstantsIsNearest : Obligations.DivisionByConstantsIsNearest :=
  ⟨fun i => f32OfInt_div_constants (toInt_natAbs_lt i (by omega)), fun i => f32OfInt_div_constants (toInt_natAbs_lt i le_rfl)⟩

end Sys2Proof.Machine
end

section
/-! PROOFS. The family of `41_calibration_load.md`: the coefficients that each block loads, the bytes that it does not use, and START. -/

namespace Sys2Proof.Machine

variable {s : State}

/-! ### The guards let a command through -/

/-- R100: LDCALA before START. -/
theorem execLdcala_stopped (b : Payload 26) (stopped : s.started = false) :
    execLdcala b s = .next { s with cal := loadBlockA b s.cal, calaLoaded := true } := by
  simp [execLdcala, stopped]

/-- R101: LDCALB before START. -/
theorem execLdcalb_stopped (b : Payload 8) (stopped : s.started = false) :
    execLdcalb b s = .next { s with cal := loadBlockB b s.cal, calbLoaded := true } := by
  simp [execLdcalb, stopped]

/-- R102: START with both blocks loaded, for the first time. -/
theorem execStart_accepted (stopped : s.started = false) (blockA : s.calaLoaded = true) (blockB : s.calbLoaded = true) :
    execStart s = .next { s with started := true } := by
  have may : s.mayStart = true := by simp [State.mayStart, stopped, blockA, blockB]
  rw [execStart, if_pos may]

/-! ### Payload fields by value -/

/-- R43, R100: a little-endian pair is the 16-bit word of its value. -/
theorem le16_eq_ofNat (lo hi : Byte) : le16 lo hi = BitVec.ofNat 16 (hi.toNat * 256 + lo.toNat) := by
  rw [← le16_toNat, BitVec.ofNat_toNat, BitVec.setWidth_eq]

/-- The signed value of a word is `sext_N` of its unsigned value. -/
theorem toInt_eq_sextInt {n : Nat} (x : BitVec (n + 1)) : x.toInt = sextInt (n + 1) x.toNat := by
  rw [sextInt_eq_bmod, BitVec.toInt_eq_toNat_bmod]

/-- R101: a packed coefficient is the 16-bit word of its 12-bit signed value. -/
theorem packed12_eq_ofInt (upper : Byte) (nibble : BitVec 4) :
    packed12 upper nibble = BitVec.ofInt 16 (sextInt 12 ((upper.toNat * 16 + nibble.toNat : Nat) : Int)) := by
  rw [← packed12_bits_toNat, ← toInt_eq_sextInt, ← packed12_toInt, BitVec.ofInt_toInt]

/-! ### Payload bits that are not used -/

/-- R100: `b[24]` has no part in the coefficients of block A. -/
theorem loadBlockA_congr {b b' : Payload 26} (agree : ∀ i : Fin 26, i.val ≠ 24 → b[i.val] = b'[i.val]) (c : Cal) :
    loadBlockA b c = loadBlockA b' c := by
  have same : ∀ i (inside : i < 26), i ≠ 24 → b[i] = b'[i] := fun i inside => agree ⟨i, inside⟩
  simp [loadBlockA, calTOfBlockA, calPOfBlockA, same]

/-- R101: `b[7]` has no part in the coefficients of block B. -/
theorem loadBlockB_congr {b b' : Payload 8} (agree : ∀ i : Fin 8, i.val ≠ 7 → b[i.val] = b'[i.val]) (c : Cal) :
    loadBlockB b c = loadBlockB b' c := by
  have same : ∀ i (inside : i < 8), i ≠ 7 → b[i] = b'[i] := fun i inside => agree ⟨i, inside⟩
  simp [loadBlockB, same]

theorem highNibble_congr {x y : Byte} (upper : x.toNat / 16 = y.toNat / 16) : highNibble x = highNibble y := by
  apply BitVec.eq_of_toNat_eq
  rw [highNibble_toNat, highNibble_toNat, upper]

/-- R111: of bytes 2 and 5 only the high nibbles are part of a count. -/
theorem rawOfBurst_congr {b b' : Payload 8} (agree : ∀ i : Fin 8, i.val ≠ 2 → i.val ≠ 5 → b[i.val] = b'[i.val])
    (upper2 : b[2].toNat / 16 = b'[2].toNat / 16) (upper5 : b[5].toNat / 16 = b'[5].toNat / 16) :
    rawOfBurst b = rawOfBurst b' := by
  have same : ∀ i (inside : i < 8), i ≠ 2 → i ≠ 5 → b[i] = b'[i] := fun i inside => agree ⟨i, inside⟩
  simp [rawOfBurst, adc20, same, highNibble_congr upper2, highNibble_congr upper5]

/-- Settles O18: each command uses its payload only through the coefficients or counts, and these do not use the bits in question. -/
theorem unusedPayloadBitsHaveNoEffect : Obligations.UnusedPayloadBitsHaveNoEffect := by
  refine ⟨fun b b' s agree => ?_, fun b b' s agree => ?_, fun b b' s agree upper2 upper5 => ?_⟩
  · simp only [exec, execLdcala, loadBlockA_congr agree]
  · simp only [exec, execLdcalb, loadBlockB_congr agree]
  · simp only [exec, execSample, rawOfBurst_congr agree upper2 upper5]

/-! ### The effect of each command -/

/-- Settles O11: the guard's two sides, with each pair of bytes by its value. -/
theorem execLdcala_loadBlockA : Obligations.LoadBlockA := by
  refine fun b s => ⟨rfl, execLdcala_started b, fun stopped => ?_⟩
  simp only [exec, execLdcala_stopped b stopped, loadBlockA, calTOfBlockA, calPOfBlockA, le16_eq_ofNat]

/-- Settles O12: the guard's two sides, with H2 and the packed H4 and H5 by their values. -/
theorem execLdcalb_loadBlockB : Obligations.LoadBlockB := by
  refine fun b s => ⟨rfl, execLdcalb_started b, fun stopped => ?_⟩
  simp only [exec, execLdcalb_stopped b stopped, loadBlockB, le16_eq_ofNat, packed12_eq_ofInt, lowNibble_toNat, highNibble_toNat,
    BitVec.ofNat_toNat, BitVec.zeroExtend]
  norm_cast

/-- Settles O13: START's condition and its refusal, which are each other's negation. -/
theorem startNeedsBothBlocks : Obligations.StartNeedsBothBlocks :=
  ⟨rfl, fun _ => ⟨fun ⟨stopped, blockA, blockB⟩ => execStart_accepted stopped blockA blockB, execStart_refused⟩⟩

end Sys2Proof.Machine
end

section
/-! PROOFS. The family of `42_sample_decode.md`: the counts that SAMPLE decodes, and what the cycle after it publishes. -/

namespace Sys2Proof.Machine

variable {s : State}

/-! ### The sampling commands -/

/-- R110: SAMPLE after START. -/
theorem execSample_started (b : Payload 8) (started : s.started = true) :
    execSample b s = .next { s with raw := rawOfBurst b, stagePok := false, pseq := .compt } := by
  rw [execSample, if_pos started]

/-- R111: the three counts are the words of their values. -/
theorem rawOfBurst_eq_ofNat (b : Payload 8) :
    rawOfBurst b =
      { p := BitVec.ofNat 32 (b[0].toNat * 4096 + b[1].toNat * 16 + b[2].toNat / 16)
        t := BitVec.ofNat 32 (b[3].toNat * 4096 + b[4].toNat * 16 + b[5].toNat / 16)
        h := BitVec.ofNat 32 (b[6].toNat * 256 + b[7].toNat) } := by
  simp only [← adc20_toNat, ← adc16_toNat, BitVec.ofNat_toNat, BitVec.setWidth_eq, rawOfBurst]

/-- Settles O16: the two sides of the guard on STARTED, with each count by its value. -/
theorem sampleDecodesBurst : Obligations.SampleDecodesBurst :=
  fun b _ => ⟨rfl, execSample_stopped b, fun started => rawOfBurst_eq_ofNat b ▸ execSample_started b started⟩

/-- Settles O17: NOSAMP is the skip. -/
theorem nosampChangesNothing : Obligations.NosampChangesNothing :=
  ⟨rfl, fun _ => rfl⟩

/-! ### The producer's turns in a cycle -/

section
variable {ts : List Agent} (turns : s.ports.turns = .producer :: ts)
include turns

/-- R121: the producer's turn at COMPT. -/
theorem step_compt (pseq : s.pseq = .compt) : step s = .next
    { s.setTurns ts with
      tFine := (compT s.raw.t s.cal.t).tFine
      stage := { s.stage with t := (compT s.raw.t s.cal.t).temp }
      pseq := .compp } :=
  step_of_stage (i := .compt) turns (by simp [State.stageInProgress, pseq])

/-- R131: the producer's turn at COMPP. -/
theorem step_compp (pseq : s.pseq = .compp) : step s = execCompp (s.setTurns ts) :=
  step_of_stage (i := .compp) turns (by simp [State.stageInProgress, pseq])

/-- R141: the producer's turn at COMPH. -/
theorem step_comph (pseq : s.pseq = .comph) : step s = .next
    { s.setTurns ts with
      stage := { s.stage with h := (compH s.raw.h s.tFine s.cal.h).hum }
      pseq := if s.stagePok then .cmtAcq else .idle } :=
  step_of_stage (i := .comph) turns (by simp [State.stageInProgress, pseq])

/-- R151: the producer's turn at CMT_WR. -/
theorem step_cmtWr (pseq : s.pseq = .cmtWr) : step s = .next ((s.setTurns ts).publish.setPseq .cmtRel) :=
  step_of_stage (i := .cmtWr) turns (by simp [State.stageInProgress, pseq])

/-- R152: the producer's turn at CMT_REL. -/
theorem step_cmtRel (pseq : s.pseq = .cmtRel) : step s = .next (((s.setTurns ts).setLock .free).setPseq .idle) :=
  step_of_stage (i := .cmtRel) turns (by simp [State.stageInProgress, pseq])

end

/-! ### Runs and triples -/

variable {t : State} {ts : List Agent}

/-- A run of `m` steps that answers, and `n` steps more. -/
theorem run_add {m : Nat} (n : Nat) (h : core.run m s = .next t) : core.run (m + n) s = core.run n t := by
  induction m generalizing s with
  | zero =>
    cases h
    rw [Nat.zero_add]
  | succ m ih =>
    obtain ⟨u, first, rest⟩ := run_succ_inv h
    rw [Nat.succ_add, run_succ first, ih rest]

/-- R112: a burst has no triple exactly when its pressure aborts. -/
theorem tripleOfRaw_eq_none {r : Raw} {c : Cal} : tripleOfRaw r c = none ↔ compP r.p (compT r.t c.t).tFine c.p = none := by
  simp only [tripleOfRaw, Option.map_eq_none_iff]

/-- R112: otherwise its triple holds the three results. -/
theorem tripleOfRaw_eq_some {r : Raw} {c : Cal} {x : Triple} : tripleOfRaw r c = some x ↔
    ∃ q, compP r.p (compT r.t c.t).tFine c.p = some q
      ∧ { p := q.press, t := (compT r.t c.t).temp, h := (compH r.h (compT r.t c.t).tFine c.h).hum } = x := by
  simp only [tripleOfRaw, Option.map_eq_some_iff]

/-! ### A whole cycle -/

/-- R150 to R152: with the lock free, three producer turns commit STAGE and end the cycle; no other register changes. -/
theorem run_commit (turns : s.ports.turns = .producer :: .producer :: .producer :: ts) (pseq : s.pseq = .cmtAcq)
    (free : s.lock = .free) : core.run 3 s = .next
      { s.setTurns ts with shared := s.stage, hasSample := true, lock := .free, pseq := .idle } := by
  calc core.run 3 s
    _ = core.run 2 { s.setTurns (.producer :: .producer :: ts) with lock := .prod, pseq := .cmtWr } :=
      run_succ (step_cmtAcq_free turns pseq free)
    _ = core.run 1 { s.setTurns (.producer :: ts) with shared := s.stage, hasSample := true, lock := .prod, pseq := .cmtRel } :=
      run_succ (step_cmtWr rfl rfl)
    _ = core.run 0 { s.setTurns ts with shared := s.stage, hasSample := true, lock := .free, pseq := .idle } :=
      run_succ (step_cmtRel rfl rfl)

/-- R121, R131, R141: without an ABORT three producer turns put the triple of the burst into STAGE and go on to the commit. -/
theorem run_compensation_success {r : PressResult} (turns : s.ports.turns = .producer :: .producer :: .producer :: ts)
    (pseq : s.pseq = .compt) (result : compP s.raw.p (compT s.raw.t s.cal.t).tFine s.cal.p = some r) :
    core.run 3 s = .next
      { s.setTurns ts with
        tFine := (compT s.raw.t s.cal.t).tFine
        stage :=
          { p := r.press
            t := (compT s.raw.t s.cal.t).temp
            h := (compH s.raw.h (compT s.raw.t s.cal.t).tFine s.cal.h).hum }
        stagePok := true
        pseq := .cmtAcq } := by
  calc core.run 3 s
    _ = core.run 2 _ := run_succ (step_compt turns pseq)
    _ = core.run 1 _ := run_succ ((step_compp rfl rfl).trans (execCompp_success result))
    _ = core.run 0 _ := run_succ (step_comph rfl rfl)
    _ = .next _ := by simp [run_zero]

/-- R132, R141: on an ABORT with STAGE_POK clear three producer turns end the cycle, with only T_FINE, STAGE.T, STAGE.H and PSEQ written. -/
theorem run_compensation_abort (turns : s.ports.turns = .producer :: .producer :: .producer :: ts) (pseq : s.pseq = .compt)
    (clear : s.stagePok = false) (abort : compP s.raw.p (compT s.raw.t s.cal.t).tFine s.cal.p = none) :
    core.run 3 s = .next
      { s.setTurns ts with
        tFine := (compT s.raw.t s.cal.t).tFine
        stage :=
          { s.stage with
            t := (compT s.raw.t s.cal.t).temp
            h := (compH s.raw.h (compT s.raw.t s.cal.t).tFine s.cal.h).hum }
        pseq := .idle } := by
  calc core.run 3 s
    _ = core.run 2 _ := run_succ (step_compt turns pseq)
    _ = core.run 1 _ := run_succ ((step_compp rfl rfl).trans (execCompp_abort abort))
    _ = core.run 0 _ := run_succ (step_comph rfl rfl)
    _ = .next _ := by simp [clear, run_zero]

/-- Settles O49: the compensation and then the commit of its triple, or the compensation that ends in an ABORT. -/
theorem cyclePublishesItsOwnTriple : Obligations.CyclePublishesItsOwnTriple := by
  intro s ts pseq free clear
  constructor
  · intro x triple turns
    obtain ⟨q, result, rfl⟩ := tripleOfRaw_eq_some.mp triple
    have cycle := (run_add 3 (run_compensation_success turns pseq result)).trans (run_commit (ts := ts) rfl rfl free)
    exact ⟨_, cycle, rfl, rfl, rfl, rfl, rfl⟩
  · intro triple turns
    exact ⟨_, run_compensation_abort turns pseq clear (tripleOfRaw_eq_none.mp triple), rfl, rfl, free, rfl, clear, rfl⟩

end Sys2Proof.Machine
end

section
/-! PROOFS. The family of `43_comp_temperature.md`: comp_T as its C-like form, and what COMPT writes. -/

namespace Sys2Proof.Machine

/-- R122: the primitives of `t_fine` are the machine operations of the C-like form. -/
theorem tempFine_eq_cTempFine (adcT : Word) (c : CalT) : tempFine adcT c = cTempFine adcT c := by
  simp only [tempFine, cTempFine, add32_eq, sub32_eq, mul32_eq, shl32_eq, asr32_eq, widenU16_eq, widenS16_eq]

/-- R122: so are those of `T`. -/
theorem tempCenti_eq_cTempCenti (tFine : Word) : tempCenti tFine = cTempCenti tFine := by
  rw [tempCenti, cTempCenti, asr32_eq, add32_eq, mul32_eq]

/-- R122: comp_T gives the `t_fine`, the `T` and the `T / 100.0` of the C-like form. -/
theorem compT_eq (adcT : Word) (c : CalT) : compT adcT c =
    { tFine := cTempFine adcT c
      centi := cTempCenti (cTempFine adcT c)
      temp := f32Div (i32ToF32 (cTempCenti (cTempFine adcT c))) 0x42C80000#32 } := by
  rw [compT, tempFine_eq_cTempFine, tempCenti_eq_cTempCenti, tempFloat, Config.f32Hundred]

/-- Settles O19: COMPT writes the results of comp_T, which are those of the C-like form, and does so in every state. -/
theorem temperatureStage : Obligations.TemperatureStage := by
  refine ⟨rfl, fun s => ?_⟩
  calc exec .compt s
    _ = execCompt s := rfl
    _ = _ := by rw [execCompt, compT_eq]

end Sys2Proof.Machine
end

section
/-! PROOFS. The family of `44_comp_pressure.md`: comp_P as its C-like form, what COMPP writes, and when it aborts. -/

namespace Sys2Proof.Machine

/-! ### The primitives of comp_P as the machine operations of the C-like form -/

/-- R132: the product before the shift by 33. -/
theorem pressScaled_eq_cPressProduct (tFine : Word) (c : CalP) : pressScaled (pressV1 tFine) c = cPressProduct tFine c := by
  have offset : 140737488355328#64 = 1#64 <<< 47 := by decide
  simp only [pressScaled, pressV1, cPressProduct, offset, add64_eq, sub64_eq, mul64_eq, shl64_eq, asr64_eq, widenU16To64_eq,
    widenS16To64_eq, widenS32To64_eq]

/-- R132: the guarded divisor. -/
theorem pressDivisor_eq_cPressDivisor (tFine : Word) (c : CalP) : pressDivisor tFine c = cPressDivisor tFine c := by
  rw [pressDivisor, cPressDivisor, asr64_eq, pressScaled_eq_cPressProduct]

/-- R132: the pressure, once the guard lets the division be made. -/
theorem pressFixed_eq_cPressFixed (adcP : Word) {tFine : Word} {c : CalP} (nonzero : cPressDivisor tFine c ≠ 0#64) :
    pressFixed (div64 (pressNumerator adcP tFine c) (cPressDivisor tFine c)) c = cPressFixed adcP tFine c := by
  rw [div64_eq _ _ nonzero]
  simp only [pressFixed, pressNumerator, pressV1, pressV2, cPressFixed, add64_eq, sub64_eq, mul64_eq, shl64_eq, asr64_eq,
    widenS16To64_eq, widenS32To64_eq]

/-! ### The two outcomes of comp_P -/

/-- R132: ABORT is exactly a zero divisor in the C-like form. -/
theorem compP_eq_none_iff_cPressDivisor {adcP tFine : Word} {c : CalP} :
    compP adcP tFine c = none ↔ cPressDivisor tFine c = 0#64 := by
  rw [compP_eq_none, pressDivisor_eq_cPressDivisor]

/-- R132: with any other divisor comp_P gives the `p` and the `p / 256.0` of the C-like form. -/
theorem compP_eq_some {adcP tFine : Word} {c : CalP} (nonzero : cPressDivisor tFine c ≠ 0#64) :
    compP adcP tFine c =
      some
        { fixed := cPressFixed adcP tFine c
          press := f32Div (i64ToF32 (cPressFixed adcP tFine c)) 0x43800000#32 } := by
  rw [compP_of_nonzero (by rwa [pressDivisor_eq_cPressDivisor]), pressDivisor_eq_cPressDivisor, pressFixed_eq_cPressFixed adcP nonzero,
    pressFloat, Config.f32TwoFiftySix]

/-- Settles O20: the two sides of the guard, each with what COMPP writes there. -/
theorem pressureStage : Obligations.PressureStage := by
  refine ⟨rfl, fun s => ⟨fun zero => ?_, fun nonzero => ?_⟩⟩
  · exact execCompp_abort (compP_eq_none_iff_cPressDivisor.mpr zero)
  · exact execCompp_success (compP_eq_some nonzero)

/-! ### The abort as an interval of the product -/

/-- R88: an arithmetic right shift by `n` gives zero exactly on the values from 0 to `2^n - 1`; a negative value gives at most -1. -/
theorem asr64_eq_zero_iff (a : DWord) (n : Nat) : asr64 a n = 0#64 ↔ 0 ≤ a.toInt ∧ a.toInt < 2 ^ n := by
  have pos : (0 : Int) < 2 ^ n := by positivity
  rw [← BitVec.toInt_inj, asr64_toInt, BitVec.toInt_zero, Int.fdiv_eq_ediv_of_nonneg _ pos.le, Int.ediv_eq_iff_of_pos pos]
  simp

/-- R132: with P1 zero the product is zero. -/
theorem cPressProduct_of_p1_zero (tFine : Word) {c : CalP} (zero : c.p1 = 0#16) : cPressProduct tFine c = 0#64 := by
  simp [cPressProduct, zero]

theorem compP_eq_none_iff_cPressProduct {adcP tFine : Word} {c : CalP} :
    compP adcP tFine c = none ↔ 0 ≤ (cPressProduct tFine c).toInt ∧ (cPressProduct tFine c).toInt < 2 ^ 33 := by
  rw [compP_eq_none, pressDivisor, pressScaled_eq_cPressProduct, asr64_eq_zero_iff]

/-- Settles O22: the divisor is the product shifted by 33, so it is zero on that interval, which holds the zero product of P1 = 0. -/
theorem abortExactlyOnSmallProduct : Obligations.AbortExactlyOnSmallProduct := by
  refine fun adc tFine c => ⟨compP_eq_none_iff_cPressProduct, fun zero => ?_⟩
  rw [compP_eq_none_iff_cPressProduct, cPressProduct_of_p1_zero tFine zero]
  decide

end Sys2Proof.Machine
end

section
/-! PROOFS. The family of `45_comp_humidity.md`: comp_H as its C-like form, what COMPH writes, and the range and the bounds of the
humidity. -/

namespace Sys2Proof.Machine

/-! ### The primitives of comp_H as the machine operations of the C-like form -/

/-- R142: the integer before the clamp. -/
theorem humPreClamp_eq_cHumPreClamp (adcH tFine : Word) (c : CalH) : humPreClamp adcH tFine c = cHumPreClamp adcH tFine c := by
  simp only [humPreClamp, humA, humB, cHumPreClamp, add32_eq, sub32_eq, mul32_eq, shl32_eq, asr32_eq, widenU8_eq, widenS8_eq,
    widenS16_eq]

/-- R142: the two bounds one after the other are one clamp, because a value raised to the lower bound is not above the upper. -/
theorem humFixed_eq_cHumFixed (y : Word) : humFixed y = cHumFixed y := by
  rw [humFixed, asr32_eq, clamp, Config.humClampHi]
  simp only [cHumFixed, BitVec.slt_iff_toInt_lt]
  by_cases below : y.toInt < (0#32).toInt
  · rw [if_pos below, if_pos below, if_neg (by decide)]
  · simp only [if_neg below]

/-- R142: comp_H gives the `h` and the `h / 1024.0` of the C-like form. -/
theorem compH_eq (adcH tFine : Word) (c : CalH) : compH adcH tFine c =
    { fixed := cHumFixed (cHumPreClamp adcH tFine c)
      hum := f32Div (i32ToF32 (cHumFixed (cHumPreClamp adcH tFine c))) 0x44800000#32 } := by
  rw [compH, humPreClamp_eq_cHumPreClamp, humFixed_eq_cHumFixed, humFloat, Config.f32TenTwentyFour]

/-- Settles O21: COMPH writes the result of comp_H, which is that of the C-like form, and does so in every state. -/
theorem humidityStage : Obligations.HumidityStage := by
  refine ⟨rfl, fun s => ?_⟩
  calc exec .comph s
    _ = execComph s := rfl
    _ = _ := by rw [execComph, compH_eq]

/-! ### The range of the humidity -/

/-- R92, R94: an integer of at most 102400 is converted exactly, and its division by 1024.0 is exact. -/
theorem f32Value_humFloat {h : Word} (range : h.toNat ≤ 102400) : f32Value (humFloat h) = (h.toNat : ℚ) / 1024 := by
  have signed : h.toInt = h.toNat := BitVec.toInt_eq_toNat_of_lt (by omega)
  have converted : f32Value (i32ToF32 h) = h.toInt := smallIntegersConvertExactly.1 h (by omega)
  obtain ⟨-, divided, -⟩ := divisionByConstantsIsNearest.1 h
  rw [humFloat, Config.f32TenTwentyFour, divided, converted, signed, Int.cast_natCast]

/-- R142: 102400 / 1024 is 100. -/
theorem f32Value_humFloat_bounds {h : Word} (range : h.toNat ≤ 102400) :
    0 ≤ f32Value (humFloat h) ∧ f32Value (humFloat h) ≤ 100 := by
  have rangeQ : (h.toNat : ℚ) ≤ 102400 := by exact_mod_cast range
  rw [f32Value_humFloat range]
  exact ⟨by positivity, by linarith⟩

/-- Settles O23: `h` is shifted after the clamp, so it is in range, where its conversion and division are exact. -/
theorem humidityInRange : Obligations.HumidityInRange := by
  intro adc tFine c
  have range := humFixed_range (humPreClamp adc tFine c)
  rw [compH]
  exact ⟨range, f32Value_humFloat range, f32Value_humFloat_bounds range⟩

/-! ### The bounds of the clamp -/

section
variable {v lo hi : Word} (ordered : lo.toInt ≤ hi.toInt)
include ordered

/-- R98: the lower bound is inclusive. -/
theorem clamp_of_le (below : v.toInt ≤ lo.toInt) : clamp v lo hi = lo := by
  rcases below.lt_or_eq with less | same
  · rw [clamp, if_pos less]
  · rw [BitVec.eq_of_toInt_eq same, clamp, if_neg (lt_irrefl _), if_neg ordered.not_gt]

/-- R98: the upper bound is inclusive. -/
theorem clamp_of_ge (above : hi.toInt ≤ v.toInt) : clamp v lo hi = hi := by
  rw [clamp, if_neg (ordered.trans above).not_gt]
  rcases above.lt_or_eq with less | same
  · rw [if_pos less]
  · rw [BitVec.eq_of_toInt_eq same, if_neg (lt_irrefl _)]

end

/-- Settles O24: at and beyond a bound the clamp gives the bound, whose shift and division are the two patterns. -/
theorem humidityClampsAtBounds : Obligations.HumidityClampsAtBounds := by
  intro adc tFine c
  have ordered : (0#32).toInt ≤ Config.humClampHi.toInt := by decide
  rw [compH, humPreClamp_eq_cHumPreClamp, humFixed]
  refine ⟨fun below => ?_, fun above => ?_⟩
  · rw [clamp_of_le ordered below]
    decide
  · rw [clamp_of_ge ordered above]
    decide

end Sys2Proof.Machine
end

section
/-! PROOFS. The family of `46_commit_poll.md`: the steps of the commit and of the poll, a whole poll, and the orders in which the two
meet at the lock. -/

namespace Sys2Proof.Machine

variable {s : State}

/-! ### The stages of the commit -/

/-- R150: CMT_ACQ takes a free lock. -/
theorem execCmtAcq_free (free : s.lock = .free) : execCmtAcq s = .next { s with lock := .prod, pseq := .cmtWr } := by
  have got : s.tryAcquire .prod = some (s.setLock .prod) := tryAcquire_eq_some.mpr ⟨free, rfl⟩
  rw [execCmtAcq, got]
  rfl

/-- R150, R187: CMT_ACQ waits on a held lock. -/
theorem execCmtAcq_held (held : s.lock ≠ .free) : execCmtAcq s = .next s := by
  rw [execCmtAcq, tryAcquire_eq_none.mpr held, ignored]

/-- Settles O31: the two sides of the acquire step. -/
theorem commitAcquires : Obligations.CommitAcquires :=
  ⟨rfl, fun _ => ⟨execCmtAcq_free, execCmtAcq_held⟩⟩

/-- Settles O32: publication has one outcome. -/
theorem commitPublishes : Obligations.CommitPublishes :=
  ⟨rfl, fun _ => rfl⟩

/-- Settles O33: release has one outcome. -/
theorem commitReleases : Obligations.CommitReleases :=
  ⟨rfl, fun _ => rfl⟩

/-! ### The steps of the poll -/

/-- R154: the try step takes a free lock. -/
theorem execPoll_free (free : s.lock = .free) : execPoll s = .next { s with lock := .cons, cseq := .pollCopy } := by
  have got : s.tryAcquire .cons = some (s.setLock .cons) := tryAcquire_eq_some.mpr ⟨free, rfl⟩
  rw [execPoll, got]
  rfl

/-- R154: the try step is turned away from a held lock. -/
theorem execPoll_held (held : s.lock ≠ .free) : execPoll s = .next s := by
  rw [execPoll, tryAcquire_eq_none.mpr held, ignored]

/-- R155: the copy of a fresh triple. -/
theorem takeSample_fresh (fresh : s.hasSample = true) : s.takeSample = { s with out := s.shared, hasSample := false } := by
  rw [State.takeSample, if_pos fresh]

/-- R155: without a fresh sample there is nothing to copy. -/
theorem takeSample_stale (stale : s.hasSample = false) : s.takeSample = s := by
  rw [State.takeSample, stale, if_neg Bool.false_ne_true]

/-- R155: on both sides the copy leaves the flag clear. -/
theorem takeSample_eq (s : State) :
    s.takeSample = { s with out := if s.hasSample then s.shared else s.out, hasSample := false } := by
  cases flag : s.hasSample with
  | true => exact takeSample_fresh flag
  | false =>
    rw [takeSample_stale flag, if_neg Bool.false_ne_true, ← flag]

/-- Settles O34: the two sides of the try step. -/
theorem pollTries : Obligations.PollTries :=
  ⟨rfl, fun _ => ⟨execPoll_free, execPoll_held⟩⟩

/-- Settles O35: the two sides of the copy. -/
theorem pollCopies : Obligations.PollCopies := by
  refine ⟨rfl, fun s => ⟨fun fresh => ?_, fun stale => ?_⟩⟩
  · rw [exec, execPollCopy, takeSample_fresh fresh]
    rfl
  · rw [exec, execPollCopy, takeSample_stale stale]
    rfl

/-- Settles O36: release has one outcome. -/
theorem pollReleases : Obligations.PollReleases :=
  ⟨rfl, fun _ => rfl⟩

/-! ### The turns at the lock -/

variable {ts : List Agent} {cp : List Byte}

/-- R150, R187: the producer's turn at CMT_ACQ with the lock held. -/
theorem step_cmtAcq_held (turns : s.ports.turns = .producer :: ts) (pseq : s.pseq = .cmtAcq) (held : s.lock ≠ .free) :
    step s = .next (s.setTurns ts) := by
  rw [step_of_stage (i := .cmtAcq) turns (by simp [State.stageInProgress, pseq])]
  exact execCmtAcq_held held

section
variable (turns : s.ports.turns = .consumer :: ts) (cseq : s.cseq = .idle) (poll : s.ports.cp = 0x20#8 :: cp)
include turns cseq poll

/-- R154: the consumer's turn with POLL on CP runs the try step, the frame and the turn gone. -/
theorem step_poll : step s = execPoll ((s.setTurns ts).setStream .cp cp) := by
  have idle : s.portIdle .cp = true := by simp [State.portIdle, cseq]
  have found : parseFrame .cp (s.stream .cp) = .command .poll cp := by
    rw [State.stream, poll]
    exact parseFrame_encoding (i := .poll) rfl cp
  exact step_of_command turns idle found

/-- R154: with the lock free it is taken for the consumer. -/
theorem step_poll_free (free : s.lock = .free) :
    step s = .next { (s.setTurns ts).setStream .cp cp with lock := .cons, cseq := .pollCopy } :=
  (step_poll turns cseq poll).trans (execPoll_free free)

/-- R154: with the lock held only the frame and the turn are gone. -/
theorem step_poll_held (held : s.lock ≠ .free) : step s = .next ((s.setTurns ts).setStream .cp cp) :=
  (step_poll turns cseq poll).trans (execPoll_held held)

end

/-! ### A whole poll -/

/-- R154 to R157: with the lock free, three consumer turns take what is pending and give the lock back. -/
theorem run_poll (turns : s.ports.turns = .consumer :: .consumer :: .consumer :: ts) (cseq : s.cseq = .idle)
    (poll : s.ports.cp = 0x20#8 :: cp) (free : s.lock = .free) : core.run 3 s = .next
      { (s.setTurns ts).setStream .cp cp with
        out := if s.hasSample then s.shared else s.out
        hasSample := false
        lock := .free
        cseq := .idle } := by
  calc core.run 3 s
    _ = core.run 2 { (s.setTurns (.consumer :: .consumer :: ts)).setStream .cp cp with lock := .cons, cseq := .pollCopy } :=
      run_succ (step_poll_free turns cseq poll free)
    _ = core.run 1 { (s.setTurns (.consumer :: ts)).setStream .cp cp with
          out := if s.hasSample then s.shared else s.out
          hasSample := false
          lock := .cons
          cseq := .pollRel } :=
      run_succ ((step_pollCopy rfl rfl).trans (by rw [takeSample_eq]; rfl))
    _ = core.run 0 _ := run_succ (step_pollRel rfl rfl)

/-- Settles O37: the poll's three turns, or the turn in which it is turned away. -/
theorem wholePoll : Obligations.WholePoll := by
  intro s cp ts cseq poll
  refine ⟨fun free turns => ?_, fun held turns => step_poll_held turns cseq poll held⟩
  rw [run_poll turns cseq poll free, ← free, ← cseq]
  rfl

/-! ### One commit and one poll -/

section
variable (pseq : s.pseq = .cmtAcq) (cseq : s.cseq = .idle) (poll : s.ports.cp = 0x20#8 :: cp) (free : s.lock = .free)
include pseq cseq poll free

/-- R158: a commit during which, after CMT_ACQ, a poll is turned away. -/
theorem run_commit_poll_after_cmtAcq
    (turns : s.ports.turns = .producer :: .consumer :: .producer :: .producer :: ts) : core.run 4 s = .next
      { (s.setTurns ts).setStream .cp cp with shared := s.stage, hasSample := true, lock := .free, pseq := .idle } := by
  calc core.run 4 s
    _ = core.run 3 { s.setTurns (.consumer :: .producer :: .producer :: ts) with lock := .prod, pseq := .cmtWr } :=
      run_succ (step_cmtAcq_free turns pseq free)
    _ = core.run 2 { (s.setTurns (.producer :: .producer :: ts)).setStream .cp cp with lock := .prod, pseq := .cmtWr } :=
      run_succ (step_poll_held rfl cseq poll (by simp))
    _ = core.run 1 { (s.setTurns (.producer :: ts)).setStream .cp cp with
          shared := s.stage, hasSample := true, lock := .prod, pseq := .cmtRel } :=
      run_succ (step_cmtWr rfl rfl)
    _ = core.run 0 _ := run_succ (step_cmtRel rfl rfl)

/-- R158: a commit during which, after CMT_WR, a poll is turned away. -/
theorem run_commit_poll_after_cmtWr
    (turns : s.ports.turns = .producer :: .producer :: .consumer :: .producer :: ts) : core.run 4 s = .next
      { (s.setTurns ts).setStream .cp cp with shared := s.stage, hasSample := true, lock := .free, pseq := .idle } := by
  calc core.run 4 s
    _ = core.run 3 { s.setTurns (.producer :: .consumer :: .producer :: ts) with lock := .prod, pseq := .cmtWr } :=
      run_succ (step_cmtAcq_free turns pseq free)
    _ = core.run 2 { s.setTurns (.consumer :: .producer :: ts) with
          shared := s.stage, hasSample := true, lock := .prod, pseq := .cmtRel } :=
      run_succ (step_cmtWr rfl rfl)
    _ = core.run 1 { (s.setTurns (.producer :: ts)).setStream .cp cp with
          shared := s.stage, hasSample := true, lock := .prod, pseq := .cmtRel } :=
      run_succ (step_poll_held rfl cseq poll (by simp))
    _ = core.run 0 _ := run_succ (step_cmtRel rfl rfl)

/-- R158: after the try step the producer waits at CMT_ACQ. -/
theorem run_poll_then_cmtAcq (turns : s.ports.turns = .consumer :: .producer :: ts) :
    ∃ t, core.run 2 s = .next t ∧ t.pseq = .cmtAcq ∧ t.lock = .cons := by
  rw [run_succ (step_poll_free turns cseq poll free)]
  exact ⟨_, run_succ (step_cmtAcq_held rfl pseq (by simp)), pseq, rfl⟩

/-- R158: after POLL_COPY the producer still waits at CMT_ACQ. -/
theorem run_pollCopy_then_cmtAcq (turns : s.ports.turns = .consumer :: .consumer :: .producer :: ts) :
    ∃ t, core.run 3 s = .next t ∧ t.pseq = .cmtAcq ∧ t.lock = .cons := by
  rw [run_succ (step_poll_free turns cseq poll free), run_succ (step_pollCopy rfl rfl)]
  exact ⟨_, run_succ (step_cmtAcq_held (ts := ts) (by simp) (by simpa using pseq) (by simp)), by simpa using pseq, by simp⟩

end

/-- Settles O38: the orders are put together from a whole commit, a whole poll, and a commit that turns a poll away. -/
theorem commitPollInterleavings : Obligations.CommitPollInterleavings := by
  intro s cp ts free pseq cseq poll run P C
  refine ⟨?tcrAWR, ?tA, ?tcA, ?AtWR, ?AWtR, ?AWRtcr, ?AtWRtcr⟩
  case tcrAWR =>
    have first := run_poll (s := s.setTurns ([C, C, C, P, P, P] ++ ts)) rfl cseq poll free
    exact ⟨_, (run_add 3 first).trans (run_commit (ts := ts) rfl pseq rfl), rfl, rfl, rfl⟩
  case tA => exact run_poll_then_cmtAcq (ts := ts) pseq cseq poll free rfl
  case tcA => exact run_pollCopy_then_cmtAcq (ts := ts) pseq cseq poll free rfl
  case AtWR => exact ⟨_, run_commit_poll_after_cmtAcq (ts := ts) pseq cseq poll free rfl, rfl, rfl, rfl, cseq⟩
  case AWtR => exact ⟨_, run_commit_poll_after_cmtWr (ts := ts) pseq cseq poll free rfl, rfl, rfl, rfl, cseq⟩
  case AWRtcr =>
    have first := run_commit (s := s.setTurns ([P, P, P, C, C, C] ++ ts)) rfl pseq free
    exact ⟨_, (run_add 3 first).trans (run_poll (ts := ts) rfl cseq poll rfl), rfl, rfl, rfl⟩
  case AtWRtcr =>
    intro cp' second
    have first := run_commit_poll_after_cmtAcq (s := s.setTurns ([P, C, P, P, C, C, C] ++ ts)) pseq cseq poll free rfl
    exact ⟨_, (run_add 3 first).trans (run_poll (ts := ts) rfl cseq second rfl), rfl, rfl, rfl⟩

end Sys2Proof.Machine
end

section
/-! PROOFS. The family of `47_host_ops.md`: the reads of OUT and the reset of every register. -/

namespace Sys2Proof.Machine

/-- Settles O40: each of the three reads returns one word on CP (`State.returnCp`), with no condition. -/
theorem outputReads : Obligations.OutputReads :=
  ⟨rfl, rfl, rfl, fun _ => ⟨rfl, rfl, rfl⟩⟩

/-- Settles O42: RESET has one outcome, the values of `State.reset` under the ports as they stand. -/
theorem resetWritesEveryRegister : Obligations.ResetWritesEveryRegister :=
  ⟨rfl, fun _ => rfl⟩

end Sys2Proof.Machine
end

section
/-! PROOFS. The families of `60_exceptions.md` and `70_reset_and_hazards.md`: nothing stops the block, and what reset and initialisation
establish; with the table of writers of `10_state.md` section 1. -/

namespace Sys2Proof.Machine

variable {s : State} {ts : List Agent}

/-! ### No fault and no refusal -/

/-- R67, R181: a guard decides between two next states, never between going on and stopping. -/
theorem ite_next_answers (c : Prop) [Decidable c] (a b : State) :
    ∃ t, (if c then .next a else .next b : Result) = .next t :=
  ⟨if c then a else b, (apply_ite Host.Outcome.next c a b).symm⟩

theorem exec_stage_answers {i : Instr} (stage : i.opcode = none) (s : State) : ∃ t, exec i s = .next t :=
  (exec_stage_keeps_ports stage s).imp fun _ ⟨effect, _⟩ => effect

/-- R180: every instruction answers a next state, in every state. -/
theorem exec_answers (i : Instr) (s : State) : ∃ t, exec i s = .next t := by
  cases i with
  | ldcala | ldcalb | start | sample => exact ite_next_answers _ _ _
  | nosamp | rdp | rdt | rdh | rdstat | reset => exact ⟨_, rfl⟩
  | poll =>
    by_cases free : s.lock = .free
    · exact ⟨_, execPoll_free free⟩
    · exact ⟨_, execPoll_held free⟩
  | compt | compp | comph | cmtAcq | cmtWr | cmtRel | pollCopy | pollRel => exact exec_stage_answers rfl s

/-- R180: every step answers a next state. -/
theorem step_answers (s : State) : ∃ t, step s = .next t := by
  unfold step
  split
  · exact exec_answers _ _
  · exact ⟨_, rfl⟩

/-- Settles O10, by induction on the length of the run. -/
theorem noRunEverStops : Obligations.NoRunEverStops := by
  intro k
  induction k with
  | zero => exact fun s => ⟨s, run_zero s⟩
  | succ k ih =>
    intro s
    obtain ⟨u, first⟩ := step_answers s
    obtain ⟨t, rest⟩ := ih u
    exact ⟨t, (run_succ first).trans rest⟩

/-! ### Nothing to run -/

/-- R194: with no turn to take the state stays. -/
theorem step_of_no_turn (turns : s.ports.turns = []) : step s = .next s := by
  simp only [step, State.fetch, turns]

/-- R62: a turn at an idle port without a whole frame is spent, and that is all. -/
theorem step_of_incomplete {p : Port} (turns : s.ports.turns = agentOf p :: ts) (idle : s.portIdle p = true)
    (incomplete : parseFrame p (s.stream p) = .incomplete) : step s = .next (s.setTurns ts) := by
  simp only [step, fetch_of_portIdle turns idle, State.accept, State.stream_setTurns, incomplete]

/-- Settles O9: the two cases in which the fetch finds nothing and takes no byte. -/
theorem nothingHappensWithoutCommand : Obligations.NothingHappensWithoutCommand :=
  ⟨fun _ => step_of_no_turn, fun _ _ _ => step_of_incomplete⟩

/-! ### Initialisation -/

section
variable {rest : List Byte} (turns : s.ports.turns = .producer :: ts) (pseq : s.pseq = .idle)
include turns pseq

/-- R65, R66: the producer's turn with PSEQ idle runs the command whose frame is at the front of PP. -/
theorem step_of_frame_pp {i : Instr} {front : List Byte} (encoded : encode i = .frame .pp front)
    (waiting : s.ports.pp = front ++ rest) : step s = exec i ((s.setTurns ts).setStream .pp rest) := by
  have idle : s.portIdle .pp = true := by simp [State.portIdle, pseq]
  have found : parseFrame .pp (s.stream .pp) = .command i rest := by
    rw [State.stream, waiting]
    exact parseFrame_encoding encoded rest
  exact step_of_command turns idle found

/-- R100: the producer's turn with LDCALA on PP, before START. -/
theorem step_ldcala {b : Payload 26} (waiting : s.ports.pp = (0x01#8 :: b.toList) ++ rest) (stopped : s.started = false) :
    step s = .next { (s.setTurns ts).setStream .pp rest with cal := loadBlockA b s.cal, calaLoaded := true } :=
  (step_of_frame_pp turns pseq (i := .ldcala b) rfl waiting).trans (execLdcala_stopped b stopped)

/-- R101: the producer's turn with LDCALB on PP, before START. -/
theorem step_ldcalb {b : Payload 8} (waiting : s.ports.pp = (0x02#8 :: b.toList) ++ rest) (stopped : s.started = false) :
    step s = .next { (s.setTurns ts).setStream .pp rest with cal := loadBlockB b s.cal, calbLoaded := true } :=
  (step_of_frame_pp turns pseq (i := .ldcalb b) rfl waiting).trans (execLdcalb_stopped b stopped)

/-- R102: the producer's turn with START on PP, both blocks loaded. -/
theorem step_start (waiting : s.ports.pp = 0x03#8 :: rest) (stopped : s.started = false) (blockA : s.calaLoaded = true)
    (blockB : s.calbLoaded = true) : step s = .next { (s.setTurns ts).setStream .pp rest with started := true } :=
  (step_of_frame_pp turns pseq (i := .start) rfl waiting).trans (execStart_accepted stopped blockA blockB)

end

/-- R203: before START, with PSEQ idle, three producer turns load both blocks and start; no other register changes. -/
theorem run_initialisation {a : Payload 26} {b : Payload 8} {rest : List Byte}
    (turns : s.ports.turns = .producer :: .producer :: .producer :: ts) (pseq : s.pseq = .idle)
    (waiting : s.ports.pp = (0x01#8 :: a.toList) ++ ((0x02#8 :: b.toList) ++ 0x03#8 :: rest)) (stopped : s.started = false) :
    core.run 3 s = .next
      { (s.setTurns ts).setStream .pp rest with
        cal := loadBlockB b (loadBlockA a s.cal)
        calaLoaded := true
        calbLoaded := true
        started := true } := by
  calc core.run 3 s
    _ = core.run 2
          { (s.setTurns (.producer :: .producer :: ts)).setStream .pp ((0x02#8 :: b.toList) ++ 0x03#8 :: rest) with
            cal := loadBlockA a s.cal
            calaLoaded := true } :=
      run_succ (step_ldcala turns pseq waiting stopped)
    _ = core.run 1
          { (s.setTurns (.producer :: ts)).setStream .pp (0x03#8 :: rest) with
            cal := loadBlockB b (loadBlockA a s.cal)
            calaLoaded := true
            calbLoaded := true } :=
      run_succ (step_ldcalb rfl (by simpa using pseq) rfl (by simpa using stopped))
    _ = core.run 0 _ := run_succ (step_start rfl (by simpa using pseq) rfl (by simpa using stopped) rfl rfl)

/-- Settles O15: after reset nothing is started and PSEQ is idle. -/
theorem initialisationReachesLaunchState : Obligations.InitialisationReachesLaunchState := by
  intro a b ps rest ts waiting turns
  rw [List.append_assoc] at waiting
  exact run_initialisation (s := { State.reset with ports := ps }) turns rfl waiting rfl

/-! ### Reset -/

/-- Settles O52: no invariant reads the ports, so each is that of `State.reset`; the cycle invariant asks for nothing with PSEQ idle. -/
theorem resetMeetsInvariants : Obligations.ResetMeetsInvariants :=
  fun _ => ⟨(by decide : State.reset.Inv), cycleInv_of_idle rfl, (by decide : State.reset.FloatsOrdinary)⟩

/-! ### The writers of each register -/

/-- Settles O43, by what each instruction can do: a register that its effect names has it as a writer, and every other one is unchanged. -/
theorem registersWrittenOnlyByTheirOwners : Obligations.RegistersWrittenOnlyByTheirOwners := by
  intro i s t h notReset
  cases i with
  | reset => exact absurd rfl notReset
  | ldcala b => obtain ⟨-, rfl⟩ | ⟨-, rfl⟩ := execLdcala_cases h <;> simp
  | ldcalb b => obtain ⟨-, rfl⟩ | ⟨-, rfl⟩ := execLdcalb_cases h <;> simp
  | start => obtain ⟨-, rfl⟩ | ⟨-, rfl⟩ := execStart_cases h <;> simp
  | sample b => obtain ⟨-, rfl⟩ | ⟨-, rfl⟩ := execSample_cases h <;> simp
  | compp => obtain ⟨-, rfl⟩ | ⟨_, -, rfl⟩ := execCompp_cases h <;> simp
  | cmtAcq => obtain ⟨-, rfl⟩ | ⟨-, rfl⟩ := execCmtAcq_cases h <;> simp
  | poll => obtain ⟨-, rfl⟩ | ⟨-, rfl⟩ := execPoll_cases h <;> simp
  | pollCopy => obtain ⟨-, rfl⟩ | ⟨-, rfl⟩ := execPollCopy_cases h <;> simp
  | nosamp | rdp | rdt | rdh | rdstat | compt | comph | cmtWr | cmtRel | pollRel =>
    cases h
    simp

end Sys2Proof.Machine
end
